-- ==== Sys2Proof/Word.lean ====
section
/-! DEFINITION. The words of the command interface (rule R90): every datum crosses it as a whole 32-bit word (rule R75). -/

namespace Sys2Proof

/-- A 32-bit word of the interface: `CMD`, `DIN` or `RDATA` (rule R90). -/
abbrev Word := BitVec 32

/-- A duration in microseconds, zero-extended to 32 bits (rule R10; log entry 6 says how `DUR_W` enters). -/
abbrev Duration := BitVec 32

/-- The `IDX` field: a register address or a buffer index (rule R100). -/
abbrev Index := BitVec 16

end Sys2Proof
end

