-- ==== Sys2Proof/Syntax.lean ====
section
/-! DEFINITION. The commands of IRCORE, one constructor per row of spec/opcode_table.json (rules R94, R105), and the names their operands range over. -/

namespace Sys2Proof

/-- The level of a captured entry (rule R36). Code 3 is reserved and has no name. -/
inductive Level where
  | low
  | high
  | timeout
deriving DecidableEq, Repr

/-- ProtocolTag (rules R3, R37). -/
inductive Tag where
  | unknown
  | aeha
  | nec
  | sony
deriving DecidableEq, Repr

/-- The three protocols that have a ROM row (rules R13, R210): every tag but UNKNOWN. -/
inductive Protocol where
  | aeha
  | nec
  | sony
deriving DecidableEq, Repr

/-- A command with its operands. `din` is the whole data word of the commands that take a duration (rule R92);
the others ignore `DIN` and so carry none (log entry 19). -/
inductive Instr where
  /-- NOP (rule R240) -/
  | nop
  /-- CAP_START (rule R124) -/
  | capStart
  /-- CAP_PUSH lvl, dur (rule R126) -/
  | capPush (lvl : Level) (din : Word)
  /-- CAP_STOP (rule R131) -/
  | capStop
  /-- CLASSIFY (rule R157) -/
  | classify
  /-- DECODE tag (rule R180) -/
  | decode (tag : Tag)
  /-- FB_CLEAR (rule R214) -/
  | fbClear
  /-- FB_PUSH bit (rule R215) -/
  | fbPush (bit : Bool)
  /-- ENCODE tag (rule R216) -/
  | encode (tag : Tag)
  /-- ROM_LOOKUP tag, bit (rule R213) -/
  | romLookup (tag : Tag) (bit : Bool)
  /-- CMP dur (rule R153) -/
  | cmp (din : Word)
  /-- RD_REG idx (rule R241) -/
  | rdReg (idx : Index)
  /-- RD_EDUR idx (rule R242) -/
  | rdEdur (idx : Index)
  /-- RD_ELVL idx (rule R243) -/
  | rdElvl (idx : Index)
  /-- RD_FBIT idx (rule R244) -/
  | rdFbit (idx : Index)
  /-- RD_PULSE idx (rule R245) -/
  | rdPulse (idx : Index)
deriving DecidableEq, Repr

end Sys2Proof
end

