-- ==== Sys2Proof/Config.lean ====
section
/-! DEFINITION. What an instance of IRCORE fixes: the parameters of rules R10 and R11 and the ROM record of rules R12 and R13.
The default values stand in Sys2Proof/Machine/Rom.lean. There is no free value in this model. -/

namespace Sys2Proof

/-- The read-only timing record ROM (rules R12, R13). `LONG[p]` is `UNIT[p]` for every p (rule R13, log entry 8), so it has no
field of its own. `TOL` is the exact rational `tolNum / tolDen` (rule R15). -/
structure Rom where
  maxGap : Duration
  unitAeha : Duration
  unitNec : Duration
  unitSony : Duration
  shortAeha : Duration
  shortNec : Duration
  shortSony : Duration
  repeatNec : Duration
  tolNum : Nat
  tolDen : Nat
deriving DecidableEq, Repr

/-- One instance of IRCORE: `DUR_W` (rule R10), the depths (rule R11) and ROM. -/
structure Config where
  durW : Nat
  ebufDepth : Nat
  fbufDepth : Nat
  rom : Rom
deriving DecidableEq, Repr

/-- `PBUF_DEPTH = 2 × FBUF_DEPTH` (rule R11). -/
def Config.pbufDepth (c : Config) : Nat := 2 * c.fbufDepth

end Sys2Proof
end

