-- ==== Sys2Proof/WellFormed.lean ====
section
/-! DEFINITION. Which instances are legal (93_implementation_defined V9), and which operands are durations of an instance.
The operand names of Sys2Proof/Syntax.lean leave no other ill-formed command: every level, tag, bit and index is a legal operand. -/

namespace Sys2Proof

/-- Every duration of a ROM record (rule R13). -/
def Rom.durations (r : Rom) : List Duration :=
  [r.maxGap, r.unitAeha, r.unitNec, r.unitSony, r.shortAeha, r.shortNec, r.shortSony, r.repeatNec]

/-- `DUR_W` is at least 14 (rule R10). -/
def Config.durWOk (c : Config) : Bool := decide (14 ≤ c.durW)

/-- `EBUF_DEPTH` lies in 2 to 65536 (rule R11). -/
def Config.ebufDepthOk (c : Config) : Bool := decide (2 ≤ c.ebufDepth ∧ c.ebufDepth ≤ 65536)

/-- `FBUF_DEPTH` lies in 1 to 32768 (rule R11). -/
def Config.fbufDepthOk (c : Config) : Bool := decide (1 ≤ c.fbufDepth ∧ c.fbufDepth ≤ 32768)

/-- `TOL` is a rational number: its denominator is not 0. DEDUCED from rule R15 (log entry 5); safe. -/
def Config.tolOk (c : Config) : Bool := decide (c.rom.tolDen ≠ 0)

/-- Every ROM duration is a duration of the instance, a number of `DUR_W` bits. DEDUCED from rules R10 and R21 (log entry 5); safe. -/
def Config.romFits (c : Config) : Bool := c.rom.durations.all fun d => decide (d.toNat < 2 ^ c.durW)

/-- A legal instance (rules R10, R11; 93_implementation_defined V9; log entry 5). -/
def Config.legal (c : Config) : Bool :=
  c.durWOk && c.ebufDepthOk && c.fbufDepthOk && c.tolOk && c.romFits

/-- The operands of a command are operands an assembler may write for the instance: a `<dur>` is a duration of `DUR_W` bits
(rules R10, R105). A data word with higher bits is no illegal command: CAP_PUSH and CMP read `DIN[DUR_W-1:0]` (rule R92). -/
def Instr.wellFormed (c : Config) : Instr → Bool
  | .capPush _ din => decide (din.toNat < 2 ^ c.durW)
  | .cmp din => decide (din.toNat < 2 ^ c.durW)
  | .nop | .capStart | .capStop | .classify | .decode _ | .fbClear | .fbPush _ | .encode _ | .romLookup _ _ => true
  | .rdReg _ | .rdEdur _ | .rdElvl _ | .rdFbit _ | .rdPulse _ => true

end Sys2Proof
end

