-- ==== Sys2Proof/Decode.lean ====
section
/-! DEFINITION. The command decoder of rules R91 to R104, total on every command word and data word and rejecting by name,
and after it the encoder of rule R105. -/

namespace Sys2Proof

/-- Why a command word is illegal (rule R101). Every reason has the one response `(ILLEGAL, 0)`. -/
inductive Illegal where
  /-- `RSV ≠ 0` -/
  | reservedBits
  /-- `OP` is 0xC to 0xF -/
  | reservedOpcode
  /-- a field the opcode does not use is not 0 (rule R95) -/
  | unusedField
  /-- CAP_PUSH with `LVL = 3` (rule R96) -/
  | reservedLevel
  /-- opcode 0xB with `SEL` 5, 6 or 7 (rule R99) -/
  | reservedSelector
deriving DecidableEq, Repr

/-- `OP`, bits [31:28] (rule R91). -/
def opField (w : Word) : BitVec 4 := w.extractLsb' 28 4
/-- `TAG`, bits [27:26] (rule R91). -/
def tagField (w : Word) : BitVec 2 := w.extractLsb' 26 2
/-- `LVL`, bits [25:24] (rule R91). -/
def lvlField (w : Word) : BitVec 2 := w.extractLsb' 24 2
/-- `BIT`, bit [23] (rule R91). -/
def bitField (w : Word) : BitVec 1 := w.extractLsb' 23 1
/-- `SEL`, bits [22:20] (rule R91). -/
def selField (w : Word) : BitVec 3 := w.extractLsb' 20 3
/-- `RSV`, bits [19:16] (rule R91). -/
def rsvField (w : Word) : BitVec 4 := w.extractLsb' 16 4
/-- `IDX`, bits [15:0] (rule R91). -/
def idxField (w : Word) : Index := w.extractLsb' 0 16

/-- A command word from its fields, the highest first (rules R16, R91). -/
def packFields (op : BitVec 4) (tag lvl : BitVec 2) (bit : BitVec 1) (sel : BitVec 3) (rsv : BitVec 4) (idx : Index) : Word :=
  op ++ tag ++ lvl ++ bit ++ sel ++ rsv ++ idx

/-- Level codes (rule R36). -/
def levelCode : Level → BitVec 2
  | .low => 0
  | .high => 1
  | .timeout => 2

/-- The level a code names; code 3 names none (rules R36, R96). -/
def levelOf (b : BitVec 2) : Option Level :=
  match b.toNat with
  | 0 => some .low
  | 1 => some .high
  | 2 => some .timeout
  | _ => none

/-- Tag codes (rule R37). -/
def tagCode : Tag → BitVec 2
  | .unknown => 0
  | .aeha => 1
  | .nec => 2
  | .sony => 3

/-- The tag a code names: all four codes are legal (rules R37, R97). -/
def tagOf (b : BitVec 2) : Tag :=
  match b.toNat with
  | 0 => .unknown
  | 1 => .aeha
  | 2 => .nec
  | _ => .sony

/-- The code of a Frame bit (rule R98). -/
def bitCode (b : Bool) : BitVec 1 := if b then 1 else 0

/-- The Frame bit a code names (rule R98). -/
def bitOfCode (b : BitVec 1) : Bool := decide (b = 1)

/-- The command `i` if the fields it does not use are 0 (rule R95). -/
def whenUnusedZero (unusedZero : Bool) (i : Instr) : Except Illegal Instr :=
  if unusedZero then .ok i else .error .unusedField

/-- The read family of opcode 0xB by its selector (rule R99). -/
def decodeRead (sel : BitVec 3) (idx : Index) : Except Illegal Instr :=
  match sel.toNat with
  | 0 => .ok (.rdReg idx)
  | 1 => .ok (.rdEdur idx)
  | 2 => .ok (.rdElvl idx)
  | 3 => .ok (.rdFbit idx)
  | 4 => .ok (.rdPulse idx)
  | _ => .error .reservedSelector

/-- CAP_PUSH by its level code (rule R96). -/
def decodePush (lvl : BitVec 2) (din : Word) : Except Illegal Instr :=
  match levelOf lvl with
  | some l => .ok (.capPush l din)
  | none => .error .reservedLevel

/-- The decoder of rule R104 on a command `(CMD, DIN)`. `DIN` never makes a word illegal (rule R92). -/
def decode (cmd din : Word) : Except Illegal Instr :=
  let tag0 := decide (tagField cmd = 0)
  let lvl0 := decide (lvlField cmd = 0)
  let bit0 := decide (bitField cmd = 0)
  let sel0 := decide (selField cmd = 0)
  let idx0 := decide (idxField cmd = 0)
  if rsvField cmd ≠ 0 then .error .reservedBits
  else
    match (opField cmd).toNat with
    | 0x0 => whenUnusedZero (tag0 && lvl0 && bit0 && sel0 && idx0) .nop
    | 0x1 => whenUnusedZero (tag0 && lvl0 && bit0 && sel0 && idx0) .capStart
    | 0x2 => if tag0 && bit0 && sel0 && idx0 then decodePush (lvlField cmd) din else .error .unusedField
    | 0x3 => whenUnusedZero (tag0 && lvl0 && bit0 && sel0 && idx0) .capStop
    | 0x4 => whenUnusedZero (tag0 && lvl0 && bit0 && sel0 && idx0) .classify
    | 0x5 => whenUnusedZero (lvl0 && bit0 && sel0 && idx0) (.decode (tagOf (tagField cmd)))
    | 0x6 => whenUnusedZero (tag0 && lvl0 && bit0 && sel0 && idx0) .fbClear
    | 0x7 => whenUnusedZero (tag0 && lvl0 && sel0 && idx0) (.fbPush (bitOfCode (bitField cmd)))
    | 0x8 => whenUnusedZero (lvl0 && bit0 && sel0 && idx0) (.encode (tagOf (tagField cmd)))
    | 0x9 => whenUnusedZero (lvl0 && sel0 && idx0) (.romLookup (tagOf (tagField cmd)) (bitOfCode (bitField cmd)))
    | 0xA => whenUnusedZero (tag0 && lvl0 && bit0 && sel0 && idx0) (.cmp din)
    | 0xB => if tag0 && lvl0 && bit0 then decodeRead (selField cmd) (idxField cmd) else .error .unusedField
    | _ => .error .reservedOpcode

/-- The command word of a command (rules R91, R94, R105), every unused field 0. -/
def encodeCmd : Instr → Word
  | .nop => packFields 0x0 0 0 0 0 0 0
  | .capStart => packFields 0x1 0 0 0 0 0 0
  | .capPush lvl _ => packFields 0x2 0 (levelCode lvl) 0 0 0 0
  | .capStop => packFields 0x3 0 0 0 0 0 0
  | .classify => packFields 0x4 0 0 0 0 0 0
  | .decode tag => packFields 0x5 (tagCode tag) 0 0 0 0 0
  | .fbClear => packFields 0x6 0 0 0 0 0 0
  | .fbPush bit => packFields 0x7 0 0 (bitCode bit) 0 0 0
  | .encode tag => packFields 0x8 (tagCode tag) 0 0 0 0 0
  | .romLookup tag bit => packFields 0x9 (tagCode tag) 0 (bitCode bit) 0 0 0
  | .cmp _ => packFields 0xA 0 0 0 0 0 0
  | .rdReg idx => packFields 0xB 0 0 0 0 0 idx
  | .rdEdur idx => packFields 0xB 0 0 0 1 0 idx
  | .rdElvl idx => packFields 0xB 0 0 0 2 0 idx
  | .rdFbit idx => packFields 0xB 0 0 0 3 0 idx
  | .rdPulse idx => packFields 0xB 0 0 0 4 0 idx

/-- The data word of a command: its duration, or 0 (rule R105). -/
def encodeDin : Instr → Word
  | .capPush _ din => din
  | .cmp din => din
  | .nop | .capStart | .capStop | .classify | .decode _ | .fbClear | .fbPush _ | .encode _ | .romLookup _ _ => 0
  | .rdReg _ | .rdEdur _ | .rdElvl _ | .rdFbit _ | .rdPulse _ => 0

/-- The words of a command, `(CMD, DIN)` (rules R90, R105). -/
def encode (i : Instr) : Word × Word := (encodeCmd i, encodeDin i)

/-- The command word in a number laid out as spec/opcode_table.json numbers bits: `CMD` is bits 31 to 0. -/
def tableCmd (nbits w : Nat) : Word := BitVec.ofNat 32 (w % 2 ^ nbits)

/-- The data word that follows it, bits 63 to 32; 0 for a row of 32 bits. -/
def tableDin (nbits w : Nat) : Word := BitVec.ofNat 32 (w % 2 ^ nbits / 2 ^ 32)

/-- The command this decoder reads from a table row's bits; none where the word is illegal. -/
def decodeTableWord (nbits w : Nat) : Option Instr :=
  (decode (tableCmd nbits w) (tableDin nbits w)).toOption

end Sys2Proof
end

