-- ==== Sys2Proof/Machine/Rom.lean ====
section
/-! DEFINITION. The default instance of rules R11 and R13, and ROM by protocol. -/

namespace Sys2Proof

/-- The constants of rule R13 (µs; TOL is 35/100). -/
def Rom.default : Rom where
  maxGap := 10000
  unitAeha := 425
  unitNec := 562
  unitSony := 600
  shortAeha := 141
  shortNec := 281
  shortSony := 300
  repeatNec := 2250
  tolNum := 35
  tolDen := 100

/-- The default parameters of rules R10, R11 and R13. -/
def Config.default : Config where
  durW := 32
  ebufDepth := 1024
  fbufDepth := 512
  rom := Rom.default

/-- `UNIT[p]` (rule R13). -/
def Rom.unit (r : Rom) : Protocol → Duration
  | .aeha => r.unitAeha
  | .nec => r.unitNec
  | .sony => r.unitSony

/-- `LONG[p] = UNIT[p]` for every p (rules R13, R152). -/
def Rom.long (r : Rom) (p : Protocol) : Duration := r.unit p

/-- `SHORT[p]` (rules R13, R14). -/
def Rom.short (r : Rom) : Protocol → Duration
  | .aeha => r.shortAeha
  | .nec => r.shortNec
  | .sony => r.shortSony

/-- The pair (mark, space) of the encoder ROM, `enc(t, b)` (rule R210). -/
def Rom.enc (r : Rom) (p : Protocol) (bit : Bool) : Duration × Duration :=
  (if bit then r.long p else r.short p, r.unit p)

/-- The 16-bit packing of ROM_LOOKUP can hold this ROM: every duration of it is below 65536 (rule R213;
93_implementation_defined V7; log entry 11). -/
def Rom.packable (r : Rom) : Bool := r.durations.all fun d => decide (d.toNat < 65536)

/-- `100 × TOL`, where it is an integer that a 32-bit register holds (rule R56; log entry 12). -/
def Rom.tolPercent (r : Rom) : Option Word :=
  if 100 * r.tolNum % r.tolDen = 0 ∧ 100 * r.tolNum / r.tolDen < 2 ^ 32 then
    some (BitVec.ofNat 32 (100 * r.tolNum / r.tolDen))
  else none

/-- The instance can show every constant: neither ROM_LOOKUP nor RD_REG 0x0012 is refused on it (rules R56, R213). -/
def Config.readable (c : Config) : Bool := c.rom.packable && c.rom.tolPercent.isSome

/-- The protocol a tag names; UNKNOWN names none (rule R37). -/
def Tag.protocol? : Tag → Option Protocol
  | .unknown => none
  | .aeha => some .aeha
  | .nec => some .nec
  | .sony => some .sony

/-- The tag of a protocol (rule R37). -/
def Protocol.tag : Protocol → Tag
  | .aeha => .aeha
  | .nec => .nec
  | .sony => .sony

end Sys2Proof
end

