-- ==== Sys2Proof/Machine/State.lean ====
section
/-! DEFINITION. The architectural state of IRCORE (10_state.md), as plain data, and its reset value (rule R60). -/

namespace Sys2Proof.Machine

/-- `SEG_STATE` (rule R32). Value 3 is never held and has no name. -/
inductive SegState where
  | idle
  | capturing
  | done
deriving DecidableEq, Repr

/-- `CAP_RESULT` (rule R33). `errHardware` is reserved: no command writes it. Values 6 and 7 are never held and have no name. -/
inductive CapResult where
  | none
  | success
  | noData
  | short
  | errHardware
  | overflow
deriving DecidableEq, Repr

/-- `DSTAT` (rule R41). -/
inductive DStat where
  | none
  | data
  | repeatCode
  | pass
  | errNoMatch
  | errEmpty
  | errTimeout
  | errFull
deriving DecidableEq, Repr

/-- `FKIND` (rule R43). Value 3 is never held and has no name. -/
inductive FKind where
  | none
  | data
  | repeatCode
deriving DecidableEq, Repr

/-- `ESTAT` (rule R46). -/
inductive EStat where
  | none
  | ok
  | badTag
  | empty
deriving DecidableEq, Repr

/-- `RSTAT` (rule R261). Codes 9 to 15 are never returned and have no name. -/
inductive Status where
  | ok
  | illegal
  | notCapturing
  | busy
  | overflow
  | badTag
  | empty
  | full
  | index
deriving DecidableEq, Repr

/-- One response `(RSTAT, RDATA)` (rule R90). -/
structure Response where
  rstat : Status
  rdata : Word
deriving DecidableEq, Repr

/-- One entry `(dur, lvl)` of EBUF (rule R35). -/
structure Edge where
  dur : Duration
  lvl : Level
deriving DecidableEq, Repr

/-- What the host can do to IRCORE: issue a command (rule R90) or assert RESET (rule R290). -/
inductive HostInput where
  | command (cmd din : Word)
  | reset
deriving DecidableEq, Repr

/-- The state of IRCORE with its instance and the two ends of its port.

`inputs` is the model's own field: what the host will still do, in order (DESIGN CHOICE, log entry 1; safe).
`response` is the answer to the last command, none after reset (rule R290; DESIGN CHOICE, log entry 2; safe).
The counts `ECOUNT`, `FLEN` and `PLEN` are the lengths of the buffers: a cell at or beyond its count holds no value
(rule R57; log entry 9). -/
structure State where
  /-- the host's coming inputs, the next one first -/
  inputs : List HostInput
  /-- `(RSTAT, RDATA)` of the last command -/
  response : Option Response
  /-- the parameters and ROM (rules R11, R49): no command writes them -/
  cfg : Config
  /-- `SEG_STATE` (rule R32) -/
  segState : SegState
  /-- `CAP_RESULT` (rule R33) -/
  capResult : CapResult
  /-- `EBUF[0 .. ECOUNT-1]` (rules R34, R35) -/
  ebuf : List Edge
  /-- `CTAG` (rule R38) -/
  ctag : Tag
  /-- `CREP` (rule R39) -/
  crep : Bool
  /-- `CVALID` (rule R40) -/
  cvalid : Bool
  /-- `DSTAT` (rule R41) -/
  dstat : DStat
  /-- `FTAG` (rule R42) -/
  ftag : Tag
  /-- `FKIND` (rule R43) -/
  fkind : FKind
  /-- `FBUF[0 .. FLEN-1]` (rules R44, R45) -/
  fbuf : List Bool
  /-- `ESTAT` (rule R46) -/
  estat : EStat
  /-- `PBUF[0 .. PLEN-1]` (rules R47, R48) -/
  pbuf : List Duration
deriving DecidableEq, Repr

/-- IRCORE never stops with a fault: no failure stops it and every command completes (rules R260, R301). The type has no
constructor, so no step can answer a fault (log entry 17). -/
inductive Fault where
deriving DecidableEq, Repr

/-- Why a step has no meaning in this model. -/
inductive Refusal where
  /-- Raised by an arm of `exec` whose instruction has no meaning yet. Safe: the model stops where the hardware goes on. -/
  | notModelled (mnemonic : String)
  /-- Raised by `step` when the instance is not legal (93_implementation_defined V9: "not a legal instance"). Safe: no hardware is such an instance. -/
  | illegalInstance
  /-- Raised by ROM_LOOKUP on a ROM with a value of 65536 or more (rule R213: "a model instantiating one must refuse ROM_LOOKUP"). Safe: the model stops. -/
  | romNotPackable
  /-- Raised by RD_REG 0x0012 where `100 × TOL` is no integer (rule R56: "a model instantiating one must refuse RD_REG 0x0012"). Safe: the model stops. -/
  | tolNotReadable
deriving DecidableEq, Repr

/-- The answer of a meaning and of a step. -/
abbrev Result := Host.Outcome State Fault Refusal

/-- The reset state of an instance (rule R60): the instance itself is not affected by reset. -/
def State.resetWith (c : Config) : State where
  inputs := []
  response := none
  cfg := c
  segState := .idle
  capResult := .none
  ebuf := []
  ctag := .unknown
  crep := false
  cvalid := false
  dstat := .none
  ftag := .unknown
  fkind := .none
  fbuf := []
  estat := .none
  pbuf := []

/-- The machine right after reset, the default instance (rules R11, R13, R60; log entry 4). -/
def State.reset : State := State.resetWith Config.default

end Sys2Proof.Machine
end

