-- ==== Sys2Proof/Machine/Ops.lean ====
section
/-! DEFINITION. The named operations over the state: responding and failing (rule R18), the register codes and layouts
(rules R32 to R55), the buffers (rules R70 to R73) and RESET (rule R290). IRCORE has no trap and no trap return
(rule R268): what it has instead of taking an exception is `fail`, the one operation every failing command ends in. -/

namespace Sys2Proof.Machine

/-! ### Counts (rules R34, R44, R47) -/

/-- `ECOUNT` (rule R34). -/
def State.ecount (s : State) : Nat := s.ebuf.length

/-- `FLEN` (rule R44). -/
def State.flen (s : State) : Nat := s.fbuf.length

/-- `PLEN` (rule R47). -/
def State.plen (s : State) : Nat := s.pbuf.length

/-! ### Codes -/

/-- `SEG_STATE` codes (rule R32). -/
def segStateCode : SegState → BitVec 2
  | .idle => 0
  | .capturing => 1
  | .done => 2

/-- `CAP_RESULT` codes (rule R33). -/
def capResultCode : CapResult → BitVec 3
  | .none => 0
  | .success => 1
  | .noData => 2
  | .short => 3
  | .errHardware => 4
  | .overflow => 5

/-- `DSTAT` codes (rule R41). -/
def dstatCode : DStat → BitVec 3
  | .none => 0
  | .data => 1
  | .repeatCode => 2
  | .pass => 3
  | .errNoMatch => 4
  | .errEmpty => 5
  | .errTimeout => 6
  | .errFull => 7

/-- `FKIND` codes (rule R43). -/
def fkindCode : FKind → BitVec 2
  | .none => 0
  | .data => 1
  | .repeatCode => 2

/-- `ESTAT` codes (rule R46). -/
def estatCode : EStat → BitVec 2
  | .none => 0
  | .ok => 1
  | .badTag => 2
  | .empty => 3

/-- `RSTAT` codes (rule R261). -/
def statusCode : Status → BitVec 4
  | .ok => 0
  | .illegal => 1
  | .notCapturing => 2
  | .busy => 3
  | .overflow => 4
  | .badTag => 5
  | .empty => 6
  | .full => 7
  | .index => 8

/-! ### Register layouts (rules R51 to R55) -/

/-- SEG: `SEG_STATE` in [1:0], `CAP_RESULT` in [6:4] (rule R52). -/
def State.segReg (s : State) : Word :=
  (0 : BitVec 25) ++ capResultCode s.capResult ++ (0 : BitVec 2) ++ segStateCode s.segState

/-- CLS: `CTAG` in [1:0], `CREP` in [2], `CVALID` in [3] (rule R53). -/
def State.clsReg (s : State) : Word :=
  (0 : BitVec 28) ++ BitVec.ofBool s.cvalid ++ BitVec.ofBool s.crep ++ tagCode s.ctag

/-- DEC: `DSTAT` in [2:0], `FTAG` in [5:4], `FKIND` in [7:6] (rule R54). -/
def State.decReg (s : State) : Word :=
  (0 : BitVec 24) ++ fkindCode s.fkind ++ tagCode s.ftag ++ (0 : BitVec 1) ++ dstatCode s.dstat

/-- ENC: `ESTAT` in [1:0] (rule R55). -/
def State.encReg (s : State) : Word :=
  (0 : BitVec 30) ++ estatCode s.estat

/-- A count or a parameter as a 32-bit register value, `zext_32` (rules R51, R56). -/
def countWord (n : Nat) : Word := BitVec.ofNat 32 n

/-! ### Responding (rules R18, R93, R263) -/

/-- The state with its response port at `(st, v)`. -/
def State.withResponse (s : State) (st : Status) (v : Word) : State :=
  { s with response := some { rstat := st, rdata := v } }

/-- `respond(OK, v)` ends the command (rule R18). -/
def respondOk (v : Word) (s : State) : Result := .next (s.withResponse .ok v)

/-- `fail S` ends the command with `RSTAT = S` and `RDATA = 0`; state writes made before it stand (rules R18, R263). -/
def fail (st : Status) (s : State) : Result := .next (s.withResponse st 0)

/-! ### Capture (rules R71, R124, R126, R127, R131) -/

/-- A new capture: EBUF empty, CAPTURING, no result, the classification stale (rule R124). -/
def State.beginCapture (s : State) : State :=
  { s with ebuf := [], segState := .capturing, capResult := .none, cvalid := false }

/-- `EBUF[ECOUNT] <- e; ECOUNT <- ECOUNT + 1` (rule R126). -/
def State.pushEdge (s : State) (e : Edge) : State := { s with ebuf := s.ebuf ++ [e] }

/-- The capture ends with the result `r` (rules R126, R127, R131). -/
def State.endCapture (s : State) (r : CapResult) : State := { s with segState := .done, capResult := r }

/-! ### Classifier, frame and pulse results -/

/-- CTAG, CREP and CVALID after a classification (rule R157). -/
def State.setClass (s : State) (tag : Tag) (rep : Bool) : State :=
  { s with ctag := tag, crep := rep, cvalid := true }

/-- `commit(s, tag, kind, bits)`: the Frame in FBUF is replaced (rules R72, R180). -/
def State.commitFrame (s : State) (d : DStat) (tag : Tag) (kind : FKind) (bits : List Bool) : State :=
  { s with dstat := d, ftag := tag, fkind := kind, fbuf := bits }

/-- `FBUF[FLEN] <- b; FLEN <- FLEN + 1; FKIND <- DATA` (rule R215). -/
def State.pushBit (s : State) (b : Bool) : State := { s with fbuf := s.fbuf ++ [b], fkind := .data }

/-- The PulseTrain in PBUF is replaced and ESTAT records the outcome (rules R73, R216). -/
def State.writeTrain (s : State) (e : EStat) (train : List Duration) : State :=
  { s with estat := e, pbuf := train }

/-- A cell of a buffer; none at or beyond its count (rules R57, R77). -/
def readCell {α : Type} (cells : List α) (k : Index) : Option α := cells[k.toNat]?

/-- Every buffer holds at most its capacity (rules R34, R44, R47): the canonical form of the buffers, which here stand
where a machine with addressed memory has its memory (20_memory R70; log entry 16). -/
def Memory.wf (s : State) : Bool :=
  decide (s.ecount ≤ s.cfg.ebufDepth ∧ s.flen ≤ s.cfg.fbufDepth ∧ s.plen ≤ s.cfg.pbufDepth)

/-! ### The port and RESET -/

/-- The host's next input, and the state without it (log entry 1). -/
def State.takeInput (s : State) : Option (HostInput × State) :=
  match s.inputs with
  | [] => none
  | x :: rest => some (x, { s with inputs := rest })

/-- The state with `x` as the host's next input (log entry 1). -/
def State.offerInput (s : State) (x : HostInput) : State := { s with inputs := x :: s.inputs }

/-- RESET asserted: every piece of state takes its reset value, the instance stays, no response is given, and the host's
coming inputs are the host's (rules R60, R290; log entry 14). -/
def State.applyReset (s : State) : State := { State.resetWith s.cfg with inputs := s.inputs }

end Sys2Proof.Machine
end

