-- ==== Sys2Proof/Machine/Operands.lean ====
section
/-! DEFINITION. The operand forms: the duration on `DIN` (rule R92), the pulse stream of EBUF (rule R19) and the
classifier's samples of it (rules R154, R155). -/

namespace Sys2Proof.Machine

/-- `DIN[DUR_W-1:0]`, an unsigned duration (rule R92; log entry 6). -/
def durationOf (c : Config) (din : Word) : Duration := BitVec.ofNat 32 (din.toNat % 2 ^ c.durW)

/-- The pulse stream `P[0 .. M-1]`, `P[j] = EBUF[j+1]`: entry 0 is not part of it (rule R19). -/
def pulsesOf (ebuf : List Edge) : List Edge := ebuf.drop 1

/-- The pulse stream of a state (rule R19). -/
def State.pulses (s : State) : List Edge := pulsesOf s.ebuf

/-- The duration of pulse `j` where it exists and is no TIMEOUT entry (rules R154, R155). -/
def sample (pulses : List Edge) (j : Nat) : Option Duration :=
  match pulses[j]? with
  | some e => if e.lvl = .timeout then none else some e.dur
  | none => none

/-- The unit sample `U`: the first space, `P[1]` (rule R154). -/
def unitSample (pulses : List Edge) : Option Duration := sample pulses 1

/-- The repeat sample `Q`: the first mark, `P[0]` (rule R154). -/
def repeatSample (pulses : List Edge) : Option Duration := sample pulses 0

end Sys2Proof.Machine
end

