-- ==== Sys2Proof/Machine/Flags.lean ====
section
/-! DEFINITION. The comparator outputs: the window and gap predicates of rule R17, exact as rule R151 asks, and the
comparator vector of rule R150. -/

namespace Sys2Proof.Machine

/-- `n × (1 − TOL) ≤ d ≤ n × (1 + TOL)`, both sides multiplied by TOL's denominator and the first rearranged, so that it is
exact in natural numbers (rules R15, R17, R151; log entry 13). -/
def inWindow (r : Rom) (n d : Duration) : Bool :=
  decide (n.toNat * r.tolDen ≤ d.toNat * r.tolDen + n.toNat * r.tolNum) &&
    decide (d.toNat * r.tolDen ≤ n.toNat * r.tolDen + n.toNat * r.tolNum)

/-- `gap(d)`: strictly above `MAX_GAP` (rules R17, R121). -/
def isGap (r : Rom) (d : Duration) : Bool := decide (r.maxGap.toNat < d.toNat)

/-- `lo(n) = ceil(n × (1 − TOL))`, the precomputed lower bound (rules R17, R50). -/
def windowLo (r : Rom) (n : Duration) : Nat := (n.toNat * (r.tolDen - r.tolNum) + (r.tolDen - 1)) / r.tolDen

/-- `hi(n) = floor(n × (1 + TOL))`, the precomputed upper bound (rules R17, R50). -/
def windowHi (r : Rom) (n : Duration) : Nat := n.toNat * (r.tolDen + r.tolNum) / r.tolDen

/-- The optional sample lies in the window of `n`; an absent sample matches no window (rule R155). -/
def sampleInWindow (r : Rom) (n : Duration) : Option Duration → Bool
  | some d => inWindow r n d
  | none => false

/-- The comparator vector `cmpv(d)`, bit 0 last (rule R150). -/
def cmpv (r : Rom) (d : Duration) : BitVec 8 :=
  BitVec.ofBool (isGap r d) ++
  BitVec.ofBool (inWindow r r.shortSony d) ++
  BitVec.ofBool (inWindow r r.unitSony d) ++
  BitVec.ofBool (inWindow r r.repeatNec d) ++
  BitVec.ofBool (inWindow r r.shortNec d) ++
  BitVec.ofBool (inWindow r r.unitNec d) ++
  BitVec.ofBool (inWindow r r.shortAeha d) ++
  BitVec.ofBool (inWindow r r.unitAeha d)

end Sys2Proof.Machine
end

