-- ==== Sys2Proof/Machine/Access.lean ====
section
/-! DEFINITION. No-operation and read access (44_access.md): NOP, RD_REG, RD_EDUR, RD_ELVL, RD_FBIT, RD_PULSE. -/

namespace Sys2Proof.Machine

/-- What a register address holds: a value, nothing (unmapped), or a constant this instance cannot show (rule R56). -/
inductive RegRead where
  | value (v : Word)
  | unmapped
  | unreadable
deriving DecidableEq, Repr

/-- `reg(a)`, the register map of rules R51 to R56. -/
def readReg (s : State) (a : Index) : RegRead :=
  match a.toNat with
  | 0x00 => .value s.segReg
  | 0x01 => .value (countWord s.ecount)
  | 0x02 => .value s.clsReg
  | 0x03 => .value s.decReg
  | 0x04 => .value (countWord s.flen)
  | 0x05 => .value s.encReg
  | 0x06 => .value (countWord s.plen)
  | 0x07 => .value (countWord s.cfg.ebufDepth)
  | 0x08 => .value (countWord s.cfg.fbufDepth)
  | 0x09 => .value (countWord s.cfg.pbufDepth)
  | 0x0A => .value s.cfg.rom.maxGap
  | 0x0B => .value s.cfg.rom.unitAeha
  | 0x0C => .value s.cfg.rom.unitNec
  | 0x0D => .value s.cfg.rom.unitSony
  | 0x0E => .value s.cfg.rom.shortAeha
  | 0x0F => .value s.cfg.rom.shortNec
  | 0x10 => .value s.cfg.rom.shortSony
  | 0x11 => .value s.cfg.rom.repeatNec
  | 0x12 => match s.cfg.rom.tolPercent with
    | some v => .value v
    | none => .unreadable
  | _ => .unmapped

/-- The answer of a buffer read: the cell as a 32-bit word, or INDEX at or beyond the count (rules R242 to R245). -/
def respondCell (cell : Option Word) (s : State) : Result :=
  match cell with
  | some v => respondOk v s
  | none => fail .index s

/-- NOP (rule R240). -/
def execNop (s : State) : Result := respondOk 0 s

/-- RD_REG (rule R241). -/
def execRdReg (idx : Index) (s : State) : Result :=
  match readReg s idx with
  | .value v => respondOk v s
  | .unmapped => fail .index s
  | .unreadable => .refused .tolNotReadable

/-- RD_EDUR (rule R242). -/
def execRdEdur (idx : Index) (s : State) : Result :=
  respondCell ((readCell s.ebuf idx).map fun e => e.dur) s

/-- RD_ELVL (rule R243). -/
def execRdElvl (idx : Index) (s : State) : Result :=
  respondCell ((readCell s.ebuf idx).map fun e => (0 : BitVec 30) ++ levelCode e.lvl) s

/-- RD_FBIT (rule R244). -/
def execRdFbit (idx : Index) (s : State) : Result :=
  respondCell ((readCell s.fbuf idx).map fun b => (0 : BitVec 31) ++ BitVec.ofBool b) s

/-- RD_PULSE (rule R245). -/
def execRdPulse (idx : Index) (s : State) : Result :=
  respondCell (readCell s.pbuf idx) s

end Sys2Proof.Machine
end

