-- ==== Sys2Proof/Machine/Classifier.lean ====
section
/-! DEFINITION. The comparator array and protocol classifier (41_classifier.md): CMP, CLASSIFY. -/

namespace Sys2Proof.Machine

/-- The priority encoder of rule R156 on the samples `U` and `Q` of the pulse stream. -/
def classifyPulses (r : Rom) (pulses : List Edge) : Tag × Bool :=
  if sampleInWindow r r.unitAeha (unitSample pulses) then (.aeha, false)
  else if sampleInWindow r r.repeatNec (repeatSample pulses) then (.nec, true)
  else if sampleInWindow r r.unitNec (unitSample pulses) then (.nec, false)
  else if sampleInWindow r r.unitSony (unitSample pulses) then (.sony, false)
  else (.unknown, false)

/-- CMP (rule R153). -/
def execCmp (din : Word) (s : State) : Result :=
  respondOk ((0 : BitVec 24) ++ cmpv s.cfg.rom (durationOf s.cfg din)) s

/-- CLASSIFY (rule R157). -/
def execClassify (s : State) : Result :=
  if s.segState = .capturing then fail .busy s
  else
    let result := classifyPulses s.cfg.rom s.pulses
    let t := s.setClass result.1 result.2
    respondOk t.clsReg t

end Sys2Proof.Machine
end

