-- ==== Sys2Proof/Machine/Decoder.lean ====
section
/-! DEFINITION. The bit decoder (42_decoder.md): DECODE. -/

namespace Sys2Proof.Machine

/-- `bitOf(t, d)`: the long window first (rules R183, R184). -/
def bitOf (r : Rom) (p : Protocol) (d : Duration) : Option Bool :=
  if inWindow r (r.long p) d then some true
  else if inWindow r (r.short p) d then some false
  else none

/-- The end of an extraction: no bits is ERR_EMPTY, else DATA (rules R185, R190). -/
def endOfFrame (bits : List Bool) : DStat × List Bool :=
  if bits = [] then (.errEmpty, []) else (.data, bits)

/-- `extract(t)` from a mark position on, with the bits found so far (rule R185). -/
def extractFrom (c : Config) (p : Protocol) (bits : List Bool) : List Edge → DStat × List Bool
  | [] => endOfFrame bits
  | mk :: rest =>
    if mk.lvl = .timeout then (.errTimeout, [])
    else if isGap c.rom mk.dur then endOfFrame bits
    else
      match bitOf c.rom p mk.dur with
      | none => (.errNoMatch, [])
      | some b =>
        if bits.length = c.fbufDepth then (.errFull, [])
        else
          match rest with
          | [] => endOfFrame (bits ++ [b])
          | sp :: rest' =>
            if sp.lvl = .timeout then (.errTimeout, [])
            else if isGap c.rom sp.dur then endOfFrame (bits ++ [b])
            else extractFrom c p (bits ++ [b]) rest'

/-- `extract(t)` over the pulse stream (rule R185). -/
def extract (c : Config) (p : Protocol) (pulses : List Edge) : DStat × List Bool := extractFrom c p [] pulses

/-- `isRepeat(t)`: only NEC, on the first mark (rule R182). -/
def isRepeat (r : Rom) (p : Protocol) (pulses : List Edge) : Bool :=
  decide (p = .nec) && sampleInWindow r r.repeatNec (repeatSample pulses)

/-- The Frame DECODE commits for a protocol tag (rules R180, R182, R191, R192). -/
def State.decodeAs (s : State) (p : Protocol) : State :=
  if isRepeat s.cfg.rom p s.pulses then s.commitFrame .repeatCode .nec .repeatCode []
  else
    let out := extract s.cfg p s.pulses
    if out.1 = .data then s.commitFrame .data p.tag .data out.2
    else s.commitFrame out.1 .unknown .none []

/-- DECODE (rules R180, R181). -/
def execDecode (tag : Tag) (s : State) : Result :=
  if s.segState = .capturing then fail .busy s
  else
    let t :=
      match tag.protocol? with
      | none => s.commitFrame .pass .unknown .none []
      | some p => s.decodeAs p
    respondOk t.decReg t

end Sys2Proof.Machine
end

