-- ==== Sys2Proof/Machine/Encoder.lean ====
section
/-! DEFINITION. The bit-to-pulse encoder ROM and the frame buffer (43_encoder.md): ROM_LOOKUP, FB_CLEAR, FB_PUSH, ENCODE. -/

namespace Sys2Proof.Machine

/-- The PulseTrain of a Frame: one (mark, space) pair per bit, flattened (rules R48, R216, R217). -/
def trainOf (r : Rom) (p : Protocol) : List Bool → List Duration
  | [] => []
  | b :: bits => (r.enc p b).1 :: (r.enc p b).2 :: trainOf r p bits

/-- ROM_LOOKUP (rule R213). An instance whose ROM the 16-bit packing cannot hold is refused (log entry 11). -/
def execRomLookup (tag : Tag) (bit : Bool) (s : State) : Result :=
  if s.cfg.rom.packable then
    match tag.protocol? with
    | none => fail .badTag s
    | some p =>
      let pair := s.cfg.rom.enc p bit
      respondOk (pair.2.extractLsb' 0 16 ++ pair.1.extractLsb' 0 16) s
  else .refused .romNotPackable

/-- FB_CLEAR (rule R214). -/
def execFbClear (s : State) : Result :=
  respondOk 0 (s.commitFrame .none .unknown .none [])

/-- FB_PUSH (rule R215). -/
def execFbPush (bit : Bool) (s : State) : Result :=
  if s.flen = s.cfg.fbufDepth then fail .full s
  else
    let t := s.pushBit bit
    respondOk (countWord t.flen) t

/-- ENCODE (rules R216, R218). -/
def execEncode (tag : Tag) (s : State) : Result :=
  match tag.protocol? with
  | none => fail .badTag (s.writeTrain .badTag [])
  | some p =>
    if s.flen = 0 then fail .empty (s.writeTrain .empty [])
    else
      let t := s.writeTrain .ok (trainOf s.cfg.rom p s.fbuf)
      respondOk (countWord t.plen) t

end Sys2Proof.Machine
end

