-- ==== Sys2Proof/Machine/Segmentor.lean ====
section
/-! DEFINITION. The frame segmentor (40_segmentor.md): CAP_START, CAP_PUSH, CAP_STOP. -/

namespace Sys2Proof.Machine

/-- `finalize()`: the result code of an ending capture, the checks in the order of rule R123. -/
def finalize (c : Config) (ebuf : List Edge) : CapResult :=
  if ebuf.length < 2 then .noData
  else
    match ebuf.getLast? with
    | none => .noData
    | some last =>
      if last.lvl = .timeout then .short
      else if isGap c.rom last.dur then .success
      else .short

/-- CAP_START (rule R124). -/
def execCapStart (s : State) : Result :=
  respondOk s.beginCapture.segReg s.beginCapture

/-- The end-of-capture test after a stored entry: `ECOUNT ≥ 2 and gap(EBUF[ECOUNT-1].dur)` (rule R122). -/
def endsCapture (c : Config) (ebuf : List Edge) : Bool :=
  match ebuf.getLast? with
  | none => false
  | some last => decide (2 ≤ ebuf.length) && isGap c.rom last.dur

/-- The stored entry ends the capture, or the capture goes on (rules R122, R126). -/
def State.afterPush (s : State) : State :=
  if endsCapture s.cfg s.ebuf then s.endCapture (finalize s.cfg s.ebuf) else s

/-- CAP_PUSH (rules R126, R127). -/
def execCapPush (lvl : Level) (din : Word) (s : State) : Result :=
  if s.segState ≠ .capturing then fail .notCapturing s
  else if s.ecount = s.cfg.ebufDepth then fail .overflow (s.endCapture .overflow)
  else
    let t := (s.pushEdge { dur := durationOf s.cfg din, lvl := lvl }).afterPush
    respondOk t.segReg t

/-- CAP_STOP (rule R131). -/
def execCapStop (s : State) : Result :=
  if s.segState ≠ .capturing then fail .notCapturing s
  else
    let t := s.endCapture (finalize s.cfg s.ebuf)
    respondOk t.segReg t

end Sys2Proof.Machine
end

