-- ==== Sys2Proof/Machine/Dispatch.lean ====
section
/-! DEFINITION. One arm per command (rule R94). -/

namespace Sys2Proof.Machine

def exec (i : Instr) (s : State) : Host.Outcome State Fault Refusal :=
  match i with
  | .nop => Sys2Proof.Machine.execNop s
  | .capStart => Sys2Proof.Machine.execCapStart s
  | .capPush lvl din => Sys2Proof.Machine.execCapPush lvl din s
  | .capStop => Sys2Proof.Machine.execCapStop s
  | .classify => Sys2Proof.Machine.execClassify s
  | .decode tag => Sys2Proof.Machine.execDecode tag s
  | .fbClear => Sys2Proof.Machine.execFbClear s
  | .fbPush bit => Sys2Proof.Machine.execFbPush bit s
  | .encode tag => Sys2Proof.Machine.execEncode tag s
  | .romLookup tag bit => Sys2Proof.Machine.execRomLookup tag bit s
  | .cmp din => Sys2Proof.Machine.execCmp din s
  | .rdReg idx => Sys2Proof.Machine.execRdReg idx s
  | .rdEdur idx => Sys2Proof.Machine.execRdEdur idx s
  | .rdElvl idx => Sys2Proof.Machine.execRdElvl idx s
  | .rdFbit idx => Sys2Proof.Machine.execRdFbit idx s
  | .rdPulse idx => Sys2Proof.Machine.execRdPulse idx s

end Sys2Proof.Machine
end

