-- ==== Sys2Proof/Machine/Port.lean ====
section
/-! DEFINITION. The command port (rules R90, R101, R290): what one host input does. -/

namespace Sys2Proof.Machine

/-- A command `(CMD, DIN)` on the port: the decoded command runs, and an illegal word changes no state and responds
`(ILLEGAL, 0)` (rules R101, R262). -/
def runCommand (cmd din : Word) (s : State) : Result :=
  match decode cmd din with
  | .ok i => exec i s
  | .error _ => fail .illegal s

/-- One host input: a command, or RESET, which is no command and gives no response (rule R290). -/
def runInput (x : HostInput) (s : State) : Result :=
  match x with
  | .command cmd din => runCommand cmd din s
  | .reset => .next s.applyReset

/-- The host's next input is taken and run; with none coming, nothing happens (rule R9; log entry 3). -/
def runNext (s : State) : Result :=
  match s.takeInput with
  | none => .next s
  | some (x, t) => runInput x t

end Sys2Proof.Machine
end

