-- ==== Sys2Proof/Machine/Step.lean ====
section
/-! DEFINITION. One step: the host's next input, on a legal instance. -/

namespace Sys2Proof.Machine

/-- One step of the machine. An instance that is not legal is not accepted (93_implementation_defined V9; log entry 5). -/
def step (s : State) : Host.Outcome State Fault Refusal :=
  if s.cfg.legal then runNext s else .refused .illegalInstance

/-- `s` with the command of a table row's bits as the host's next input: IRCORE stores and fetches no commands (rules R31, R85),
so the host issuing it is what makes the very next step run it (log entry 1). -/
def State.withFetchWord (s : State) (nbits w : Nat) : State :=
  s.offerInput (.command (tableCmd nbits w) (tableDin nbits w))

end Sys2Proof.Machine
end

