-- ==== Sys2Proof/Machine/Assembly.lean ====
section
/-! DEFINITION. The assembler's side of the commands: the written form of rule R105 and the pseudo-instructions of rule R106.
An assembler expands them; they are no commands. -/

namespace Sys2Proof.Machine

/-- `<tag>` (rule R105). -/
def tagText : Tag → String
  | .unknown => "UNKNOWN"
  | .aeha => "AEHA"
  | .nec => "NEC"
  | .sony => "SONY"

/-- `<lvl>` (rule R105). -/
def levelText : Level → String
  | .low => "LOW"
  | .high => "HIGH"
  | .timeout => "TIMEOUT"

/-- `<bit>` (rule R105). -/
def bitText (b : Bool) : String := if b then "1" else "0"

/-- The written form of a command, its numbers decimal (rule R105). -/
def asmText : Instr → String
  | .nop => "NOP"
  | .capStart => "CAP_START"
  | .capPush lvl din => "CAP_PUSH " ++ levelText lvl ++ ", " ++ toString din.toNat
  | .capStop => "CAP_STOP"
  | .classify => "CLASSIFY"
  | .decode tag => "DECODE " ++ tagText tag
  | .fbClear => "FB_CLEAR"
  | .fbPush bit => "FB_PUSH " ++ bitText bit
  | .encode tag => "ENCODE " ++ tagText tag
  | .romLookup tag bit => "ROM_LOOKUP " ++ tagText tag ++ ", " ++ bitText bit
  | .cmp din => "CMP " ++ toString din.toNat
  | .rdReg idx => "RD_REG " ++ toString idx.toNat
  | .rdEdur idx => "RD_EDUR " ++ toString idx.toNat
  | .rdElvl idx => "RD_ELVL " ++ toString idx.toNat
  | .rdFbit idx => "RD_FBIT " ++ toString idx.toNat
  | .rdPulse idx => "RD_PULSE " ++ toString idx.toNat

/-- `RD_SEG` (rule R106). -/
def pseudoRdSeg : Instr := .rdReg 0x0000
/-- `RD_ECOUNT` (rule R106). -/
def pseudoRdEcount : Instr := .rdReg 0x0001
/-- `RD_CLS` (rule R106). -/
def pseudoRdCls : Instr := .rdReg 0x0002
/-- `RD_DEC` (rule R106). -/
def pseudoRdDec : Instr := .rdReg 0x0003
/-- `RD_FLEN` (rule R106). -/
def pseudoRdFlen : Instr := .rdReg 0x0004
/-- `RD_ENC` (rule R106). -/
def pseudoRdEnc : Instr := .rdReg 0x0005
/-- `RD_PLEN` (rule R106). -/
def pseudoRdPlen : Instr := .rdReg 0x0006

/-- `LOAD_FRAME b0, ..., bk` (rule R106). -/
def loadFrame (bits : List Bool) : List Instr := .fbClear :: bits.map .fbPush

/-- Levels that alternate, starting with `l` (rule R106). -/
def pushAlternating (l : Level) : List Word → List Instr
  | [] => []
  | d :: ds => .capPush l d :: pushAlternating (if l = .high then .low else .high) ds

/-- `PUSH_PULSES d0, ..., dk` (rule R106). -/
def pushPulses (durations : List Word) : List Instr := pushAlternating .high durations

end Sys2Proof.Machine
end

