-- ==== Sys2Proof/Safety.lean ====
section
/-! DEFINITION. The terms claims are stated in: invariants of the state (rules R40, R58, R129, R132), runs of commands and
what the host observes (rule R9), the illegal words of rule R101, and how a pulse stream ends a Frame (rules R185 to R194). -/

namespace Sys2Proof.Machine

/-! ### Invariants -/

/-- The invariants of rule R58, with the widths of the stored durations (rules R35, R48) and a legal instance. -/
structure StateInv (s : State) : Prop where
  legal : s.cfg.legal = true
  buffers : Memory.wf s = true
  edgeWidth : ∀ e ∈ s.ebuf, e.dur.toNat < 2 ^ s.cfg.durW
  pulseWidth : ∀ d ∈ s.pbuf, d.toNat < 2 ^ s.cfg.durW
  plenEven : s.plen % 2 = 0
  noHardwareError : s.capResult ≠ .errHardware
  capturing : s.segState = .capturing → s.capResult = .none
  idle : s.segState = .idle → s.capResult = .none ∧ s.ecount = 0
  repeatFrame : s.fkind = .repeatCode → s.flen = 0 ∧ s.ftag = .nec
  repeatClass : s.crep = true → s.ctag = .nec

/-- An entry that is a non-TIMEOUT gap (rule R129). -/
def Edge.endsWell (r : Rom) (e : Edge) : Bool := decide (e.lvl ≠ .timeout) && isGap r e.dur

/-- The shape of a capture (rules R129, R132): while CAPTURING no pulse is a gap; after SUCCESS there are at least two
entries, the last is a non-TIMEOUT gap, and no entry between the first and the last is a gap. -/
structure CaptureShape (s : State) : Prop where
  running : s.segState = .capturing → s.capResult = .none ∧ ∀ e ∈ s.pulses, isGap s.cfg.rom e.dur = false
  idle : s.segState = .idle → s.capResult = .none
  success : s.capResult = .success →
    ∃ first mid last, s.ebuf = first :: (mid ++ [last]) ∧ last.endsWell s.cfg.rom = true ∧
      ∀ e ∈ mid, isGap s.cfg.rom e.dur = false

/-- `CVALID = 1` says that no capture is running and that CTAG and CREP classify EBUF as it stands (rule R40). -/
def ClassFresh (s : State) : Prop :=
  s.cvalid = true → s.segState ≠ .capturing ∧ (s.ctag, s.crep) = classifyPulses s.cfg.rom s.pulses

/-- How the frame and encoder results fit together (rules R41 to R47). -/
structure FrameConsistent (s : State) : Prop where
  dataHasBits : s.fkind = .data ↔ s.flen ≠ 0
  decodedData : s.dstat = .data → s.ftag ≠ .unknown ∧ s.fkind = .data
  decodedRepeat : s.dstat = .repeatCode → s.ftag = .nec
  notDecoded : s.dstat ≠ .data → s.dstat ≠ .repeatCode → s.ftag = .unknown ∧ s.fkind ≠ .repeatCode
  encoded : s.estat = .ok ↔ s.plen ≠ 0

/-! ### Runs and what the host observes -/

/-- The commands of a list, one after the other; the first refusal ends it. -/
def execAll : List Instr → State → Result
  | [], s => .next s
  | i :: is, s =>
    match exec i s with
    | .next t => execAll is t
    | .fault f => .fault f
    | .refused r => .refused r

/-- The responses to a list of commands, one per command (rule R9). -/
def responsesOf : List Instr → State → List Response
  | [], _ => []
  | i :: is, s =>
    match exec i s with
    | .next t => t.response.toList ++ responsesOf is t
    | .fault _ => []
    | .refused _ => []

/-- The commands rule R246 says write no state. -/
def writesNothing : Instr → Bool
  | .nop | .cmp _ | .romLookup _ _ | .rdReg _ | .rdEdur _ | .rdElvl _ | .rdFbit _ | .rdPulse _ => true
  | .capStart | .capPush _ _ | .capStop | .classify | .decode _ | .fbClear | .fbPush _ | .encode _ => false

/-! ### Illegal words (rule R101), by the bits of the word -/

/-- A command word is illegal when any of the conditions of rule R101 holds; the fields each opcode uses are those of rule R94. -/
def illegalWord (w : Word) : Bool :=
  let op := (w.toNat / 2 ^ 28) % 16
  let tag := (w.toNat / 2 ^ 26) % 4
  let lvl := (w.toNat / 2 ^ 24) % 4
  let bit := (w.toNat / 2 ^ 23) % 2
  let sel := (w.toNat / 2 ^ 20) % 8
  let rsv := (w.toNat / 2 ^ 16) % 16
  let idx := w.toNat % 2 ^ 16
  decide (0xC ≤ op) || decide (rsv ≠ 0) ||
    decide (tag ≠ 0 ∧ op ≠ 0x5 ∧ op ≠ 0x8 ∧ op ≠ 0x9) ||
    decide (lvl ≠ 0 ∧ op ≠ 0x2) ||
    decide (bit ≠ 0 ∧ op ≠ 0x7 ∧ op ≠ 0x9) ||
    decide (sel ≠ 0 ∧ op ≠ 0xB) ||
    decide (idx ≠ 0 ∧ op ≠ 0xB) ||
    decide (op = 0x2 ∧ lvl = 3) ||
    decide (op = 0xB ∧ 5 ≤ sel)

/-! ### How a pulse stream ends a Frame (rules R185 to R194) -/

/-- A pulse the extractor passes over: no TIMEOUT entry and no gap (rules R186, R187). -/
def Edge.plain (r : Rom) (e : Edge) : Prop := e.lvl ≠ .timeout ∧ isGap r e.dur = false

/-- `stream` is made of whole (mark, space) pairs whose marks decode to `bits` and that stop nothing (rule R185). -/
def GoodPairs (r : Rom) (p : Protocol) : List Bool → List Edge → Prop
  | [], [] => True
  | b :: bits, mk :: sp :: stream =>
    mk.plain r ∧ bitOf r p mk.dur = some b ∧ sp.plain r ∧ GoodPairs r p bits stream
  | _, _ => False

/-- After pairs that gave `bits`, the rest of the stream ends the extraction with this outcome and this Frame. -/
inductive FrameEnd (c : Config) (p : Protocol) (bits : List Bool) : List Edge → DStat → List Bool → Prop
  /-- the stream is exhausted after a space (rule R185) -/
  | exhausted : bits ≠ [] → FrameEnd c p bits [] .data bits
  /-- no pulse at all (rule R190) -/
  | noPulse : bits = [] → FrameEnd c p bits [] .errEmpty []
  /-- a gap in a mark position adds no bit (rule R186) -/
  | gapMark (mk : Edge) (rest : List Edge) : mk.lvl ≠ .timeout → isGap c.rom mk.dur = true → bits ≠ [] →
      FrameEnd c p bits (mk :: rest) .data bits
  /-- the first mark is a gap (rule R190) -/
  | gapFirst (mk : Edge) (rest : List Edge) : mk.lvl ≠ .timeout → isGap c.rom mk.dur = true → bits = [] →
      FrameEnd c p bits (mk :: rest) .errEmpty []
  /-- a TIMEOUT entry in a mark position (rule R187) -/
  | timeoutMark (mk : Edge) (rest : List Edge) : mk.lvl = .timeout → FrameEnd c p bits (mk :: rest) .errTimeout []
  /-- a mark in no window (rule R188) -/
  | noMatch (mk : Edge) (rest : List Edge) : mk.plain c.rom → bitOf c.rom p mk.dur = none →
      FrameEnd c p bits (mk :: rest) .errNoMatch []
  /-- one bit more than FBUF holds (rule R189) -/
  | full (mk : Edge) (rest : List Edge) (b : Bool) : mk.plain c.rom → bitOf c.rom p mk.dur = some b →
      bits.length = c.fbufDepth → FrameEnd c p bits (mk :: rest) .errFull []
  /-- an unpaired last mark yields its bit (rule R194) -/
  | lastMark (mk : Edge) (b : Bool) : mk.plain c.rom → bitOf c.rom p mk.dur = some b →
      bits.length ≠ c.fbufDepth → FrameEnd c p bits [mk] .data (bits ++ [b])
  /-- a TIMEOUT entry in a space position (rule R187) -/
  | timeoutSpace (mk sp : Edge) (rest : List Edge) (b : Bool) : mk.plain c.rom → bitOf c.rom p mk.dur = some b →
      bits.length ≠ c.fbufDepth → sp.lvl = .timeout → FrameEnd c p bits (mk :: sp :: rest) .errTimeout []
  /-- a gap in a space position ends the Frame after the bit before it (rule R186) -/
  | gapSpace (mk sp : Edge) (rest : List Edge) (b : Bool) : mk.plain c.rom → bitOf c.rom p mk.dur = some b →
      bits.length ≠ c.fbufDepth → sp.lvl ≠ .timeout → isGap c.rom sp.dur = true →
      FrameEnd c p bits (mk :: sp :: rest) .data (bits ++ [b])

end Sys2Proof.Machine
end

