-- ==== Sys2Proof/Certificates/Slice0/Obligations.lean ====
section
/-! DEFINITION. The statements for the provers, from the numbered rules of spec/. Numbers of rules, codes and windows are
written out here; the model's own functions stand only for what a statement is about. -/

open Sys2Proof Sys2Proof.Machine

/-! ### Encoding -/

/-- Decoding the words of any command gives that command back, whatever its operands (rules R95, R104, R105). -/
def Obligations.EncodeThenDecodeGivesCommand : Prop :=
  ∀ i : Instr, decode (encode i).1 (encode i).2 = .ok i

/-- A legal word names exactly one command: encoding what it decodes to gives the word back, and a duration operand is the
data word (rules R92, R95). -/
def Obligations.LegalWordIsItsOwnEncoding : Prop :=
  ∀ (cmd din : Word) (i : Instr), decode cmd din = .ok i →
    (encode i).1 = cmd ∧ (∀ l d, i = .capPush l d → d = din) ∧ (∀ d, i = .cmp d → d = din)

/-- The decoding procedure of rule R104, line by line. -/
def Obligations.DecodingFollowsProcedure : Prop :=
  ∀ cmd din : Word, (decode cmd din).toOption =
    if cmd.extractLsb' 16 4 ≠ 0 then none
    else if cmd.extractLsb' 28 4 = 0x0 then (if cmd.extractLsb' 0 28 = 0 then some .nop else none)
    else if cmd.extractLsb' 28 4 = 0x1 then (if cmd.extractLsb' 0 28 = 0 then some .capStart else none)
    else if cmd.extractLsb' 28 4 = 0x2 then
      (if cmd.extractLsb' 26 2 = 0 ∧ cmd.extractLsb' 0 24 = 0 ∧ cmd.extractLsb' 24 2 ≠ 3 then
        some (.capPush (if cmd.extractLsb' 24 2 = 0 then .low else if cmd.extractLsb' 24 2 = 1 then .high else .timeout) din)
       else none)
    else if cmd.extractLsb' 28 4 = 0x3 then (if cmd.extractLsb' 0 28 = 0 then some .capStop else none)
    else if cmd.extractLsb' 28 4 = 0x4 then (if cmd.extractLsb' 0 28 = 0 then some .classify else none)
    else if cmd.extractLsb' 28 4 = 0x5 then
      (if cmd.extractLsb' 0 26 = 0 then some (.decode (tagOf (cmd.extractLsb' 26 2))) else none)
    else if cmd.extractLsb' 28 4 = 0x6 then (if cmd.extractLsb' 0 28 = 0 then some .fbClear else none)
    else if cmd.extractLsb' 28 4 = 0x7 then
      (if cmd.extractLsb' 24 4 = 0 ∧ cmd.extractLsb' 0 23 = 0 then some (.fbPush (cmd.getLsbD 23)) else none)
    else if cmd.extractLsb' 28 4 = 0x8 then
      (if cmd.extractLsb' 0 26 = 0 then some (.encode (tagOf (cmd.extractLsb' 26 2))) else none)
    else if cmd.extractLsb' 28 4 = 0x9 then
      (if cmd.extractLsb' 24 2 = 0 ∧ cmd.extractLsb' 0 23 = 0 then
        some (.romLookup (tagOf (cmd.extractLsb' 26 2)) (cmd.getLsbD 23)) else none)
    else if cmd.extractLsb' 28 4 = 0xA then (if cmd.extractLsb' 0 28 = 0 then some (.cmp din) else none)
    else if cmd.extractLsb' 28 4 = 0xB then
      (if cmd.extractLsb' 23 5 ≠ 0 then none
       else if cmd.extractLsb' 20 3 = 0 then some (.rdReg (cmd.extractLsb' 0 16))
       else if cmd.extractLsb' 20 3 = 1 then some (.rdEdur (cmd.extractLsb' 0 16))
       else if cmd.extractLsb' 20 3 = 2 then some (.rdElvl (cmd.extractLsb' 0 16))
       else if cmd.extractLsb' 20 3 = 3 then some (.rdFbit (cmd.extractLsb' 0 16))
       else if cmd.extractLsb' 20 3 = 4 then some (.rdPulse (cmd.extractLsb' 0 16))
       else none)
    else none

/-- A word decodes to nothing exactly when rule R101 calls it illegal, and then, in any state, it changes no state and responds
`(ILLEGAL, 0)` (rule R101). -/
def Obligations.IllegalWordsChangeNothing : Prop :=
  ∀ cmd din : Word, ((∀ i, decode cmd din ≠ .ok i) ↔ illegalWord cmd = true) ∧
    (illegalWord cmd = true → ∀ s : State,
      runCommand cmd din s = .next { s with response := some { rstat := .illegal, rdata := 0 } })

/-- Each command's words are those that agree with its match under its mask, with the value exclusion of CAP_PUSH (rule R108). -/
def Obligations.WordsMatchTheirRow : Prop :=
  ∀ cmd din : Word,
    (decode cmd din = .ok .nop ↔ cmd &&& 0xFFFFFFFF = 0x00000000) ∧
    (decode cmd din = .ok .capStart ↔ cmd &&& 0xFFFFFFFF = 0x10000000) ∧
    ((∃ l, decode cmd din = .ok (.capPush l din)) ↔ cmd &&& 0xFCFFFFFF = 0x20000000 ∧ cmd.extractLsb' 24 2 ≠ 3) ∧
    (decode cmd din = .ok .capStop ↔ cmd &&& 0xFFFFFFFF = 0x30000000) ∧
    (decode cmd din = .ok .classify ↔ cmd &&& 0xFFFFFFFF = 0x40000000) ∧
    ((∃ t, decode cmd din = .ok (.decode t)) ↔ cmd &&& 0xF3FFFFFF = 0x50000000) ∧
    (decode cmd din = .ok .fbClear ↔ cmd &&& 0xFFFFFFFF = 0x60000000) ∧
    ((∃ b, decode cmd din = .ok (.fbPush b)) ↔ cmd &&& 0xFF7FFFFF = 0x70000000) ∧
    ((∃ t, decode cmd din = .ok (.encode t)) ↔ cmd &&& 0xF3FFFFFF = 0x80000000) ∧
    ((∃ t b, decode cmd din = .ok (.romLookup t b)) ↔ cmd &&& 0xF37FFFFF = 0x90000000) ∧
    (decode cmd din = .ok (.cmp din) ↔ cmd &&& 0xFFFFFFFF = 0xA0000000) ∧
    ((∃ k, decode cmd din = .ok (.rdReg k)) ↔ cmd &&& 0xFFFF0000 = 0xB0000000) ∧
    ((∃ k, decode cmd din = .ok (.rdEdur k)) ↔ cmd &&& 0xFFFF0000 = 0xB0100000) ∧
    ((∃ k, decode cmd din = .ok (.rdElvl k)) ↔ cmd &&& 0xFFFF0000 = 0xB0200000) ∧
    ((∃ k, decode cmd din = .ok (.rdFbit k)) ↔ cmd &&& 0xFFFF0000 = 0xB0300000) ∧
    ((∃ k, decode cmd din = .ok (.rdPulse k)) ↔ cmd &&& 0xFFFF0000 = 0xB0400000)

/-- Words written out from the table of rule R105 decode to the commands they stand for. -/
def Obligations.SpecWordsDecode : Prop :=
  decode 0x00000000 0 = .ok .nop ∧ decode 0x10000000 0 = .ok .capStart ∧
  decode 0x22000000 5000 = .ok (.capPush .timeout 5000) ∧ decode 0x30000000 0 = .ok .capStop ∧
  decode 0x40000000 0 = .ok .classify ∧ decode 0x58000000 0 = .ok (.decode .nec) ∧
  decode 0x60000000 0 = .ok .fbClear ∧ decode 0x70800000 0 = .ok (.fbPush true) ∧
  decode 0x84000000 0 = .ok (.encode .aeha) ∧ decode 0x9C800000 0 = .ok (.romLookup .sony true) ∧
  decode 0xA0000000 390 = .ok (.cmp 390) ∧ decode 0xB000000A 0 = .ok (.rdReg 10) ∧
  decode 0xB0100004 0 = .ok (.rdEdur 4) ∧ decode 0xB0200003 0 = .ok (.rdElvl 3) ∧
  decode 0xB0300007 0 = .ok (.rdFbit 7) ∧ decode 0xB040000F 0 = .ok (.rdPulse 15)

/-- The numbers of the levels, tags and result codes (rules R32, R33, R36, R37, R41, R43, R46, R261). -/
def Obligations.CodeNumbers : Prop :=
  ([.low, .high, .timeout].map fun l => (levelCode l).toNat) = [0, 1, 2] ∧
  ([.unknown, .aeha, .nec, .sony].map fun t => (tagCode t).toNat) = [0, 1, 2, 3] ∧
  ([.idle, .capturing, .done].map fun x => (segStateCode x).toNat) = [0, 1, 2] ∧
  ([.none, .success, .noData, .short, .errHardware, .overflow].map fun x => (capResultCode x).toNat) = [0, 1, 2, 3, 4, 5] ∧
  ([.none, .data, .repeatCode, .pass, .errNoMatch, .errEmpty, .errTimeout, .errFull].map fun x => (dstatCode x).toNat) =
    [0, 1, 2, 3, 4, 5, 6, 7] ∧
  ([.none, .data, .repeatCode].map fun x => (fkindCode x).toNat) = [0, 1, 2] ∧
  ([.none, .ok, .badTag, .empty].map fun x => (estatCode x).toNat) = [0, 1, 2, 3] ∧
  ([.ok, .illegal, .notCapturing, .busy, .overflow, .badTag, .empty, .full, .index].map fun x => (statusCode x).toNat) =
    [0, 1, 2, 3, 4, 5, 6, 7, 8]

/-! ### The step, reset and whole-machine rules -/

/-- A step runs the decoded command: on a legal instance, with a command on the port that decodes to `i`, the step is `exec i`
of the state with that input taken, and with an illegal word on it the step responds `(ILLEGAL, 0)` (rules R8, R90, R101; the list of
host inputs is the model's choice, log entry 1). -/
def Obligations.StepRunsDecodedCommand : Prop :=
  ∀ (s : State) (cmd din : Word) (rest : List HostInput), s.cfg.legal = true → s.inputs = .command cmd din :: rest →
    (∀ i : Instr, decode cmd din = .ok i → step s = exec i { s with inputs := rest }) ∧
    (illegalWord cmd = true →
      step s = .next { s with inputs := rest, response := some { rstat := .illegal, rdata := 0 } })

/-- RESET gives every piece of state its reset value from any state, keeps the instance, and gives no response (rule R290;
that the host's coming inputs stay and that the port then holds no response is the model's choice, log entries 2 and 14). -/
def Obligations.ResetInputRestoresResetValues : Prop :=
  ∀ (s : State) (rest : List HostInput), s.cfg.legal = true → s.inputs = .reset :: rest →
    step s = .next
      { inputs := rest, response := none, cfg := s.cfg, segState := .idle, capResult := .none, ebuf := [], ctag := .unknown,
        crep := false, cvalid := false, dstat := .none, ftag := .unknown, fkind := .none, fbuf := [], estat := .none,
        pbuf := [] }

/-- With no host input coming nothing happens: the model's choice (log entry 3; rule R9 says a run ends there). -/
def Obligations.NoInputChangesNothing : Prop :=
  ∀ s : State, s.cfg.legal = true → s.inputs = [] → step s = .next s

/-- Which instances are legal (rules R10, R11 and 93_implementation_defined V9; the last two conditions are the model's, log entry
5), and a step of any other is refused. -/
def Obligations.OnlyLegalInstancesStep : Prop :=
  (∀ c : Config, c.legal = true ↔
    14 ≤ c.durW ∧ 2 ≤ c.ebufDepth ∧ c.ebufDepth ≤ 65536 ∧ 1 ≤ c.fbufDepth ∧ c.fbufDepth ≤ 32768 ∧ c.rom.tolDen ≠ 0 ∧
    ∀ d ∈ [c.rom.maxGap, c.rom.unitAeha, c.rom.unitNec, c.rom.unitSony, c.rom.shortAeha, c.rom.shortNec, c.rom.shortSony,
      c.rom.repeatNec], d.toNat < 2 ^ c.durW) ∧
  Config.default.legal = true ∧
  ∀ s : State, s.cfg.legal = false → step s = .refused .illegalInstance

/-- Every command completes: on a legal instance that can show its constants, every step answers a next state, whatever the state
and the host's input, and the instance stays as it is (rules R9, R260, R301; what a step does
without an input and which instances can show their constants are the model's, log entries 3, 11 and 12). -/
def Obligations.EveryCommandCompletes : Prop :=
  ∀ s : State, s.cfg.legal = true → s.cfg.readable = true → ∃ t, step s = .next t ∧ t.cfg = s.cfg

/-- A command gives exactly one response, its RSTAT is one of the codes 0 to 8, and RDATA is 0 where RSTAT is not OK (rule R263; the
list of host inputs is the model's choice, log entry 1). -/
def Obligations.OneResponsePerCommand : Prop :=
  ∀ (s t : State) (cmd din : Word) (rest : List HostInput), s.inputs = .command cmd din :: rest → step s = .next t →
    t.inputs = rest ∧ ∃ r, t.response = some r ∧ (statusCode r.rstat).toNat ≤ 8 ∧ (r.rstat ≠ .ok → r.rdata = 0)

/-- Which command writes which piece of state, for all commands (rules R32 to R48 and the last column of rule R51): everything
not named for a command is unchanged by it, and no command writes the parameters or ROM. -/
def Obligations.EveryCommandsFrame : Prop :=
  ∀ (i : Instr) (s t : State), exec i s = .next t →
    t.inputs = s.inputs ∧ t.cfg = s.cfg ∧
    (i ≠ .capStart → i ≠ .capStop → (∀ l d, i ≠ .capPush l d) → t.segState = s.segState ∧ t.capResult = s.capResult) ∧
    (i ≠ .capStart → (∀ l d, i ≠ .capPush l d) → t.ebuf = s.ebuf) ∧
    (i ≠ .classify → t.ctag = s.ctag ∧ t.crep = s.crep) ∧
    (i ≠ .classify → i ≠ .capStart → t.cvalid = s.cvalid) ∧
    (i ≠ .fbClear → (∀ g, i ≠ .decode g) → t.dstat = s.dstat ∧ t.ftag = s.ftag) ∧
    (i ≠ .fbClear → (∀ g, i ≠ .decode g) → (∀ b, i ≠ .fbPush b) → t.fkind = s.fkind ∧ t.fbuf = s.fbuf) ∧
    ((∀ g, i ≠ .encode g) → t.estat = s.estat ∧ t.pbuf = s.pbuf)

/-- The value of every piece of state after reset, on any instance (rule R60): no buffer holds a cell, and the parameters and ROM are
not affected. -/
def Obligations.ResetState : Prop :=
  ∀ c : Config, let s := State.resetWith c
    s.segState = .idle ∧ s.capResult = .none ∧ s.ebuf = [] ∧ s.ctag = .unknown ∧ s.crep = false ∧ s.cvalid = false ∧
    s.dstat = .none ∧ s.ftag = .unknown ∧ s.fkind = .none ∧ s.fbuf = [] ∧ s.estat = .none ∧ s.pbuf = [] ∧ s.cfg = c

/-- The machine's reset state is that of the default instance of rules R10, R11 and R13 (that it is this instance, and that the port
holds no input and no response, is the model's choice, log entries 1, 2 and 4). -/
def Obligations.ResetHoldsDefaultInstance : Prop :=
  State.reset = State.resetWith
    { durW := 32, ebufDepth := 1024, fbufDepth := 512,
      rom :=
        { maxGap := 10000, unitAeha := 425, unitNec := 562, unitSony := 600, shortAeha := 141, shortNec := 281,
          shortSony := 300, repeatNec := 2250, tolNum := 35, tolDen := 100 } } ∧
  State.reset.inputs = [] ∧ State.reset.response = none

/-- After reset, on any instance, no cell is readable, CLASSIFY gives UNKNOWN, DECODE with a protocol tag gives ERR_EMPTY and
DECODE UNKNOWN gives PASS (rule R293). -/
def Obligations.AfterResetNothingIsCaptured : Prop :=
  ∀ c : Config,
    (∀ k : Index, ∀ i ∈ [Instr.rdEdur k, .rdElvl k, .rdFbit k, .rdPulse k],
      exec i (State.resetWith c) = .next { State.resetWith c with response := some { rstat := .index, rdata := 0 } }) ∧
    (∃ t, exec .classify (State.resetWith c) = .next t ∧ t.ctag = .unknown ∧
      t.response = some { rstat := .ok, rdata := 0x00000008 }) ∧
    (∀ p : Protocol, ∃ t, exec (.decode p.tag) (State.resetWith c) = .next t ∧ t.dstat = .errEmpty) ∧
    (∃ t, exec (.decode .unknown) (State.resetWith c) = .next t ∧ t.dstat = .pass)

/-! ### Invariants -/

/-- Every step keeps the invariants of rule R58 (with a legal instance and durations of `DUR_W` bits), from every state. -/
def Obligations.StepKeepsStateInvariant : Prop :=
  ∀ s t : State, StateInv s → step s = .next t → StateInv t

/-- Every step keeps the shape of a capture (rules R129, R132), from every state. -/
def Obligations.StepKeepsCaptureShape : Prop :=
  ∀ s t : State, CaptureShape s → step s = .next t → CaptureShape t

/-- Every step keeps the meaning of CVALID (rule R40), from every state. -/
def Obligations.StepKeepsClassificationFresh : Prop :=
  ∀ s t : State, ClassFresh s → step s = .next t → ClassFresh t

/-- Every step keeps the frame and encoder results consistent (rules R41 to R47, R58), from every state. -/
def Obligations.StepKeepsFrameConsistent : Prop :=
  ∀ s t : State, FrameConsistent s → step s = .next t → FrameConsistent t

/-- The four invariants hold at reset. -/
def Obligations.ResetMeetsInvariants : Prop :=
  StateInv State.reset ∧ CaptureShape State.reset ∧ ClassFresh State.reset ∧ FrameConsistent State.reset

/-! ### Segmentor -/

/-- CAP_START (rule R124): its word, and its effect in every state. -/
def Obligations.CapStartBeginsCapture : Prop :=
  encode .capStart = (0x10000000, 0) ∧
  ∀ s : State, exec .capStart s = .next
    { s with ebuf := [], segState := .capturing, capResult := .none, cvalid := false,
             response := some { rstat := .ok, rdata := 0x00000001 } }

/-- CAP_PUSH, all of it (rules R121, R122, R126, R127): outside a capture it fails; into a full buffer it ends the capture with
OVERFLOW and stores nothing; otherwise it stores `(DIN[DUR_W-1:0], LVL)`, and a gap as the second or a later entry ends the
capture, with SHORT for a TIMEOUT entry and SUCCESS for any other. -/
def Obligations.CapPushStoresEntry : Prop :=
  (∀ d, encode (.capPush .low d) = (0x20000000, d) ∧ encode (.capPush .high d) = (0x21000000, d) ∧
    encode (.capPush .timeout d) = (0x22000000, d)) ∧
  ∀ (s : State) (l : Level) (din : Word),
    let d : Duration := BitVec.ofNat 32 (din.toNat % 2 ^ s.cfg.durW)
    let es := s.ebuf ++ [{ dur := d, lvl := l }]
    exec (.capPush l din) s =
      if s.segState ≠ .capturing then .next { s with response := some { rstat := .notCapturing, rdata := 0 } }
      else if s.ebuf.length = s.cfg.ebufDepth then
        .next { s with segState := .done, capResult := .overflow, response := some { rstat := .overflow, rdata := 0 } }
      else if 1 ≤ s.ebuf.length ∧ s.cfg.rom.maxGap.toNat < d.toNat then
        if l = .timeout then
          .next { s with ebuf := es, segState := .done, capResult := .short,
                         response := some { rstat := .ok, rdata := 0x00000032 } }
        else
          .next { s with ebuf := es, segState := .done, capResult := .success,
                         response := some { rstat := .ok, rdata := 0x00000012 } }
      else
        .next { s with ebuf := es,
                       response := some { rstat := .ok, rdata := BitVec.ofNat 32 (1 + 16 * (capResultCode s.capResult).toNat) } }

/-- The gap threshold is strict (rules R121, R130): under the default ROM, a stored entry other than the first ends the capture
exactly when its duration is 10001 or more. -/
def Obligations.GapThresholdIsStrict : Prop :=
  ∀ (s : State) (l : Level) (d : Word), s.cfg.rom = Rom.default → s.segState = .capturing → 1 ≤ s.ebuf.length →
    s.ebuf.length ≠ s.cfg.ebufDepth → d.toNat < 2 ^ s.cfg.durW →
    ∃ t, exec (.capPush l d) s = .next t ∧ t.ebuf = s.ebuf ++ [{ dur := d, lvl := l }] ∧
      (t.segState = .done ↔ 10001 ≤ d.toNat)

/-- CAP_STOP, all of it (rules R123, R131): outside a capture it fails; fewer than two entries give NO_DATA; with two or more, a last
entry that is TIMEOUT or no gap gives SHORT, and any other SUCCESS. -/
def Obligations.CapStopFinalizes : Prop :=
  encode .capStop = (0x30000000, 0) ∧
  ∀ s : State,
    (s.segState ≠ .capturing → exec .capStop s = .next { s with response := some { rstat := .notCapturing, rdata := 0 } }) ∧
    (s.segState = .capturing → s.ebuf.length < 2 → exec .capStop s = .next
      { s with segState := .done, capResult := .noData, response := some { rstat := .ok, rdata := 0x00000022 } }) ∧
    (∀ es last, s.segState = .capturing → s.ebuf = es ++ [last] → 1 ≤ es.length →
      (last.lvl = .timeout ∨ last.dur.toNat ≤ s.cfg.rom.maxGap.toNat → exec .capStop s = .next
        { s with segState := .done, capResult := .short, response := some { rstat := .ok, rdata := 0x00000032 } }) ∧
      (last.lvl ≠ .timeout → s.cfg.rom.maxGap.toNat < last.dur.toNat → exec .capStop s = .next
        { s with segState := .done, capResult := .success, response := some { rstat := .ok, rdata := 0x00000012 } }))

/-- CAP_STOP never yields SUCCESS (rule R132): in a state of the shape captures have, a running capture it ends gives NO_DATA or
SHORT. -/
def Obligations.CapStopNeverSucceeds : Prop :=
  ∀ s : State, CaptureShape s → s.segState = .capturing →
    ∃ t, exec .capStop s = .next t ∧ t.segState = .done ∧ (t.capResult = .noData ∨ t.capResult = .short)

/-- Storage order (rules R71, R128): every command leaves EBUF as it is, empties it, or appends one entry at index ECOUNT; only
CAP_START empties it and only CAP_PUSH appends. -/
def Obligations.EdgeBufferOnlyAppends : Prop :=
  ∀ (i : Instr) (s t : State), exec i s = .next t →
    t.ebuf = s.ebuf ∨ (i = .capStart ∧ t.ebuf = []) ∨
    ∃ l din, i = .capPush l din ∧ s.segState = .capturing ∧ s.ebuf.length ≠ s.cfg.ebufDepth ∧
      t.ebuf = s.ebuf ++ [{ dur := BitVec.ofNat 32 (din.toNat % 2 ^ s.cfg.durW), lvl := l }]

/-! ### Comparator array and classifier -/

/-- The window and gap predicates (rule R17): exact in the rationals for every TOL, the same as the integer bounds
`ceil(65n/100)` and `floor(135n/100)` for TOL = 35/100, and a gap is strictly above MAX_GAP. -/
def Obligations.WindowIsExact : Prop :=
  ∀ (r : Rom) (n d : Duration), r.tolDen ≠ 0 →
    (inWindow r n d = true ↔
      (n.toNat : ℚ) * (1 - (r.tolNum : ℚ) / r.tolDen) ≤ d.toNat ∧ (d.toNat : ℚ) ≤ n.toNat * (1 + (r.tolNum : ℚ) / r.tolDen)) ∧
    (r.tolNum = 35 → r.tolDen = 100 →
      (inWindow r n d = true ↔ (65 * n.toNat + 99) / 100 ≤ d.toNat ∧ d.toNat ≤ 135 * n.toNat / 100)) ∧
    (isGap r d = true ↔ r.maxGap.toNat < d.toNat)

/-- Precomputed bounds give the same comparator, for every TOL (rule R151). -/
def Obligations.PrecomputedBoundsAgree : Prop :=
  ∀ (r : Rom) (n d : Duration), r.tolDen ≠ 0 →
    (inWindow r n d = true ↔ windowLo r n ≤ d.toNat ∧ d.toNat ≤ windowHi r n)

/-- CMP (rules R150, R153): every output bit for every ROM and every duration, no state written, and the windows of the default ROM. -/
def Obligations.CmpShowsEveryWindow : Prop :=
  (∀ d, encode (.cmp d) = (0xA0000000, d)) ∧
  ∀ (s : State) (din : Word),
    let r := s.cfg.rom
    let d : Duration := BitVec.ofNat 32 (din.toNat % 2 ^ s.cfg.durW)
    let n := d.toNat
    ∃ v : Word, exec (.cmp din) s = .next { s with response := some { rstat := .ok, rdata := v } } ∧
      v.getLsbD 0 = inWindow r r.unitAeha d ∧ v.getLsbD 1 = inWindow r r.shortAeha d ∧
      v.getLsbD 2 = inWindow r r.unitNec d ∧ v.getLsbD 3 = inWindow r r.shortNec d ∧
      v.getLsbD 4 = inWindow r r.repeatNec d ∧ v.getLsbD 5 = inWindow r r.unitSony d ∧
      v.getLsbD 6 = inWindow r r.shortSony d ∧ v.getLsbD 7 = isGap r d ∧ (∀ k, 8 ≤ k → v.getLsbD k = false) ∧
      (r = Rom.default →
        v.getLsbD 0 = decide (277 ≤ n ∧ n ≤ 573) ∧ v.getLsbD 1 = decide (92 ≤ n ∧ n ≤ 190) ∧
        v.getLsbD 2 = decide (366 ≤ n ∧ n ≤ 758) ∧ v.getLsbD 3 = decide (183 ≤ n ∧ n ≤ 379) ∧
        v.getLsbD 4 = decide (1463 ≤ n ∧ n ≤ 3037) ∧ v.getLsbD 5 = decide (390 ≤ n ∧ n ≤ 810) ∧
        v.getLsbD 6 = decide (195 ≤ n ∧ n ≤ 405) ∧ v.getLsbD 7 = decide (10001 ≤ n ∧ n ≤ 2 ^ s.cfg.durW - 1))

/-- CLASSIFY (rules R154 to R157): BUSY while a capture runs; otherwise the fixed priority on the first space and the first mark,
neither a TIMEOUT entry, with CVALID set. -/
def Obligations.ClassifyByPriority : Prop :=
  encode .classify = (0x40000000, 0) ∧
  ∀ s : State,
    (s.segState = .capturing → exec .classify s = .next { s with response := some { rstat := .busy, rdata := 0 } }) ∧
    (s.segState ≠ .capturing →
      let inU (n : Duration) : Prop := ∃ e, s.ebuf[2]? = some e ∧ e.lvl ≠ .timeout ∧ inWindow s.cfg.rom n e.dur = true
      let inQ (n : Duration) : Prop := ∃ e, s.ebuf[1]? = some e ∧ e.lvl ≠ .timeout ∧ inWindow s.cfg.rom n e.dur = true
      let answers (tag : Tag) (rep : Bool) (v : Word) : Prop := exec .classify s = .next
        { s with ctag := tag, crep := rep, cvalid := true, response := some { rstat := .ok, rdata := v } }
      (inU s.cfg.rom.unitAeha → answers .aeha false 0x00000009) ∧
      (¬ inU s.cfg.rom.unitAeha → inQ s.cfg.rom.repeatNec → answers .nec true 0x0000000E) ∧
      (¬ inU s.cfg.rom.unitAeha → ¬ inQ s.cfg.rom.repeatNec → inU s.cfg.rom.unitNec → answers .nec false 0x0000000A) ∧
      (¬ inU s.cfg.rom.unitAeha → ¬ inQ s.cfg.rom.repeatNec → ¬ inU s.cfg.rom.unitNec → inU s.cfg.rom.unitSony →
        answers .sony false 0x0000000B) ∧
      (¬ inU s.cfg.rom.unitAeha → ¬ inQ s.cfg.rom.repeatNec → ¬ inU s.cfg.rom.unitNec → ¬ inU s.cfg.rom.unitSony →
        answers .unknown false 0x00000008))

/-- The consequences of the priority order under the default ROM (rule R158): the unit sample alone decides, in these ranges, when the
first mark is no repeat mark; a jitter-free NEC unit (562) is tagged AEHA and a SONY unit (600) NEC. -/
def Obligations.EffectiveUnitRanges : Prop :=
  ∀ (s : State) (e0 q u : Edge) (rest : List Edge), s.cfg.rom = Rom.default → s.segState ≠ .capturing →
    s.ebuf = e0 :: q :: u :: rest → u.lvl ≠ .timeout → ¬ (1463 ≤ q.dur.toNat ∧ q.dur.toNat ≤ 3037) →
    ∃ t, exec .classify s = .next t ∧ t.crep = false ∧ t.cvalid = true ∧
      t.ctag =
        if 277 ≤ u.dur.toNat ∧ u.dur.toNat ≤ 573 then .aeha
        else if 574 ≤ u.dur.toNat ∧ u.dur.toNat ≤ 758 then .nec
        else if 759 ≤ u.dur.toNat ∧ u.dur.toNat ≤ 810 then .sony
        else .unknown

/-- A sequence whose only mark is about 2250 µs, followed by nothing, by a TIMEOUT entry or by a gap, is an NEC repeat for
CLASSIFY and for DECODE NEC, and never a data Frame (rules R159, R182), under the default ROM. -/
def Obligations.RepeatCodeIsNeverData : Prop :=
  ∀ (s : State) (e0 q : Edge) (rest : List Edge), s.cfg.rom = Rom.default → s.segState ≠ .capturing →
    s.ebuf = e0 :: q :: rest → q.lvl ≠ .timeout → 1463 ≤ q.dur.toNat → q.dur.toNat ≤ 3037 →
    (∀ x ∈ rest.head?, x.lvl = .timeout ∨ 10000 < x.dur.toNat) →
    (∃ t, exec .classify s = .next t ∧ t.ctag = .nec ∧ t.crep = true) ∧
    (∃ t, exec (.decode .nec) s = .next t ∧ t.dstat = .repeatCode ∧ t.fkind = .repeatCode ∧ t.fbuf = []) ∧
    ∀ p : Protocol, bitOf s.cfg.rom p q.dur = none

/-! ### Decoder -/

/-- CLASSIFY and DECODE fail with BUSY while CAPTURING, with no state change (rules R157, R180, R294). -/
def Obligations.BusyWhileCapturing : Prop :=
  ∀ s : State, s.segState = .capturing →
    exec .classify s = .next { s with response := some { rstat := .busy, rdata := 0 } } ∧
    ∀ tag, exec (.decode tag) s = .next { s with response := some { rstat := .busy, rdata := 0 } }

/-- UNKNOWN pass-through (rule R181). -/
def Obligations.DecodeUnknownPassesThrough : Prop :=
  ∀ s : State, s.segState ≠ .capturing → exec (.decode .unknown) s = .next
    { s with dstat := .pass, ftag := .unknown, fkind := .none, fbuf := [],
             response := some { rstat := .ok, rdata := 0x00000003 } }

/-- The NEC repeat code (rule R182): a first mark in the repeat window gives the repeat Frame whatever follows it, and only for NEC. -/
def Obligations.DecodeNecRepeat : Prop :=
  (∀ (s : State) (e0 q : Edge) (rest : List Edge), s.segState ≠ .capturing → s.ebuf = e0 :: q :: rest → q.lvl ≠ .timeout →
    inWindow s.cfg.rom s.cfg.rom.repeatNec q.dur = true →
    exec (.decode .nec) s = .next
      { s with dstat := .repeatCode, ftag := .nec, fkind := .repeatCode, fbuf := [],
               response := some { rstat := .ok, rdata := 0x000000A2 } }) ∧
  ∀ (r : Rom) (p : Protocol) (pulses : List Edge), isRepeat r p pulses = true ↔
    p = .nec ∧ ∃ q rest, pulses = q :: rest ∧ q.lvl ≠ .timeout ∧ inWindow r r.repeatNec q.dur = true

/-- Mark to bit (rules R183, R184): the long window gives 1, the short window gives 0 where the long one does not match, and no other
mark gives a bit. For the default ROM this is the table of rule R183. -/
def Obligations.MarkToBitTable : Prop :=
  (∀ (r : Rom) (p : Protocol) (d : Duration),
    (bitOf r p d = some true ↔ inWindow r (r.unit p) d = true) ∧
    (bitOf r p d = some false ↔ inWindow r (r.unit p) d = false ∧ inWindow r (r.short p) d = true) ∧
    (bitOf r p d = none ↔ inWindow r (r.unit p) d = false ∧ inWindow r (r.short p) d = false)) ∧
  ∀ d : Duration,
    (bitOf Rom.default .aeha d =
      if 277 ≤ d.toNat ∧ d.toNat ≤ 573 then some true else if 92 ≤ d.toNat ∧ d.toNat ≤ 190 then some false else none) ∧
    (bitOf Rom.default .nec d =
      if 366 ≤ d.toNat ∧ d.toNat ≤ 758 then some true else if 183 ≤ d.toNat ∧ d.toNat ≤ 365 then some false else none) ∧
    (bitOf Rom.default .sony d =
      if 390 ≤ d.toNat ∧ d.toNat ≤ 810 then some true else if 195 ≤ d.toNat ∧ d.toNat ≤ 389 then some false else none)

/-- DECODE of a protocol follows the stream to its first stop (rules R185 to R194): after pairs that gave `bits`, the way the stream
goes on decides the outcome and the Frame, and the response is the DEC register. -/
def Obligations.DecodeStopsAtFirstFrameEnd : Prop :=
  ∀ (s : State) (p : Protocol) (good rest : List Edge) (bits frame : List Bool) (d : DStat),
    s.segState ≠ .capturing → isRepeat s.cfg.rom p s.pulses = false → s.pulses = good ++ rest →
    GoodPairs s.cfg.rom p bits good → bits.length ≤ s.cfg.fbufDepth → FrameEnd s.cfg p bits rest d frame →
    exec (.decode p.tag) s = .next
      { s with dstat := d, fbuf := frame,
               ftag := if d = .data then p.tag else .unknown, fkind := if d = .data then .data else .none,
               response := some ⟨.ok,
                 if d = .data then BitVec.ofNat 32 (1 + 16 * (tagCode p.tag).toNat + 64)
                 else BitVec.ofNat 32 (dstatCode d).toNat⟩ }

/-- DECODE of a protocol follows every pulse stream to a first stop (rules R185 to R194): outside a capture and without the repeat code,
whatever EBUF holds, the stream splits into pairs that give at most FBUF_DEPTH bits and a rest that ends the Frame, and DECODE answers
the next state that end decides. -/
def Obligations.DecodeCompletesOnEveryStream : Prop :=
  ∀ (s : State) (p : Protocol), s.segState ≠ .capturing → isRepeat s.cfg.rom p s.pulses = false →
    ∃ (good rest : List Edge) (bits frame : List Bool) (d : DStat),
      s.pulses = good ++ rest ∧ GoodPairs s.cfg.rom p bits good ∧ bits.length ≤ s.cfg.fbufDepth ∧
      FrameEnd s.cfg p bits rest d frame ∧
      exec (.decode p.tag) s = .next
        { s with dstat := d, fbuf := frame,
                 ftag := if d = .data then p.tag else .unknown, fkind := if d = .data then .data else .none,
                 response := some ⟨.ok,
                   if d = .data then BitVec.ofNat 32 (1 + 16 * (tagCode p.tag).toNat + 64)
                   else BitVec.ofNat 32 (dstatCode d).toNat⟩ }

/-- DECODE completes whenever no capture runs, and its outcome stands in DSTAT (rules R180, R191, R192): DATA leaves 1 to FBUF_DEPTH
bits tagged with the command's tag, REPEAT the empty NEC repeat Frame, and PASS or an error no Frame at all. -/
def Obligations.DecodeOutcomeAndFrame : Prop :=
  (encode (.decode .unknown) = (0x50000000, 0) ∧ encode (.decode .aeha) = (0x54000000, 0) ∧
    encode (.decode .nec) = (0x58000000, 0) ∧ encode (.decode .sony) = (0x5C000000, 0)) ∧
  ∀ (s : State) (tag : Tag), s.segState ≠ .capturing →
    ∃ t, exec (.decode tag) s = .next t ∧ t.response = some { rstat := .ok, rdata := t.decReg } ∧
      ((t.dstat = .data ∧ tag ≠ .unknown ∧ t.ftag = tag ∧ t.fkind = .data ∧ 1 ≤ t.fbuf.length ∧
          t.fbuf.length ≤ s.cfg.fbufDepth) ∨
       (t.dstat = .repeatCode ∧ tag = .nec ∧ t.ftag = .nec ∧ t.fkind = .repeatCode ∧ t.fbuf = []) ∨
       (t.dstat ∈ [.pass, .errNoMatch, .errEmpty, .errTimeout, .errFull] ∧ (t.dstat = .pass ↔ tag = .unknown) ∧
          t.ftag = .unknown ∧ t.fkind = .none ∧ t.fbuf = []))

/-- DECODE depends only on its tag, EBUF, FBUF_DEPTH and ROM, and does not write EBUF (rule R196). -/
def Obligations.DecodeReadsOnlyEdges : Prop :=
  (∀ (s t : State) (tag : Tag), exec (.decode tag) s = .next t → t.ebuf = s.ebuf) ∧
  ∀ (s s' t t' : State) (tag : Tag), s.segState ≠ .capturing → s'.segState ≠ .capturing → s.ebuf = s'.ebuf →
    s.cfg.fbufDepth = s'.cfg.fbufDepth → s.cfg.rom = s'.cfg.rom →
    exec (.decode tag) s = .next t → exec (.decode tag) s' = .next t' →
    t.dstat = t'.dstat ∧ t.ftag = t'.ftag ∧ t.fkind = t'.fkind ∧ t.fbuf = t'.fbuf ∧ t.response = t'.response

/-- Round trip (rule R195): a Frame encoded for a protocol, its train pushed after any entry 0 with any levels but TIMEOUT, the capture
ended with CAP_STOP and decoded for the same protocol, comes back bit for bit. -/
def Obligations.RoundTripThroughCapture : Prop :=
  ∀ (s s1 : State) (p : Protocol) (l0 : Level) (d0 : Word) (levels : List Level),
    s.cfg.legal = true → s.cfg.rom = Rom.default → 1 ≤ s.fbuf.length → s.fbuf.length ≤ s.cfg.fbufDepth →
    2 * s.fbuf.length + 1 ≤ s.cfg.ebufDepth → exec (.encode p.tag) s = .next s1 →
    levels.length = s1.pbuf.length → .timeout ∉ levels →
    ∃ t, execAll ([.capStart, .capPush l0 d0] ++ List.zipWith Instr.capPush levels s1.pbuf ++ [.capStop, .decode p.tag]) s1 =
        .next t ∧
      t.dstat = .data ∧ t.ftag = p.tag ∧ t.fbuf = s.fbuf

/-! ### Encoder and frame buffer -/

/-- ROM_LOOKUP (rules R210, R213): BAD_TAG for UNKNOWN, else `{space, mark}`, with no state written; an instance with a ROM value of
65536 or more is refused (that every ROM duration counts is the model's reading, log entry 11). -/
def Obligations.RomLookupShowsPair : Prop :=
  (∀ tag bit, (encode (.romLookup tag bit)).1.toNat = 0x90000000 + 0x4000000 * (tagCode tag).toNat + (if bit then 0x800000 else 0)) ∧
  ∀ (s : State) (bit : Bool),
    ((∃ d ∈ [s.cfg.rom.maxGap, s.cfg.rom.unitAeha, s.cfg.rom.unitNec, s.cfg.rom.unitSony, s.cfg.rom.shortAeha,
        s.cfg.rom.shortNec, s.cfg.rom.shortSony, s.cfg.rom.repeatNec], 65536 ≤ d.toNat) →
      ∀ tag, exec (.romLookup tag bit) s = .refused .romNotPackable) ∧
    ((∀ d ∈ [s.cfg.rom.maxGap, s.cfg.rom.unitAeha, s.cfg.rom.unitNec, s.cfg.rom.unitSony, s.cfg.rom.shortAeha,
        s.cfg.rom.shortNec, s.cfg.rom.shortSony, s.cfg.rom.repeatNec], d.toNat < 65536) →
      exec (.romLookup .unknown bit) s = .next { s with response := some { rstat := .badTag, rdata := 0 } } ∧
      ∀ p : Protocol, exec (.romLookup p.tag bit) s = .next
        { s with response := some ⟨.ok,
          BitVec.ofNat 32 (65536 * (s.cfg.rom.unit p).toNat +
            (if bit then (s.cfg.rom.unit p).toNat else (s.cfg.rom.short p).toNat))⟩ })

/-- The ROM contents for the default configuration, as ROM_LOOKUP shows them (rule R211). -/
def Obligations.DefaultRomContents : Prop :=
  ∀ s : State, s.cfg.rom = Rom.default →
    ∀ row ∈ [(Tag.aeha, true, (0x01A901A9 : Word)), (.aeha, false, 0x01A9008D), (.nec, true, 0x02320232),
        (.nec, false, 0x02320119), (.sony, true, 0x02580258), (.sony, false, 0x0258012C)],
      exec (.romLookup row.1 row.2.1) s = .next { s with response := some { rstat := .ok, rdata := row.2.2 } }

/-- FB_CLEAR (rule R214). -/
def Obligations.FbClearEmptiesFrame : Prop :=
  encode .fbClear = (0x60000000, 0) ∧
  ∀ s : State, exec .fbClear s = .next
    { s with fbuf := [], fkind := .none, ftag := .unknown, dstat := .none, response := some { rstat := .ok, rdata := 0 } }

/-- FB_PUSH (rule R215): FULL with no state change, or the bit is appended and FKIND is DATA; FTAG and DSTAT stay. -/
def Obligations.FbPushAppendsBit : Prop :=
  (encode (.fbPush false) = (0x70000000, 0) ∧ encode (.fbPush true) = (0x70800000, 0)) ∧
  ∀ (s : State) (b : Bool), exec (.fbPush b) s =
    if s.fbuf.length = s.cfg.fbufDepth then .next { s with response := some { rstat := .full, rdata := 0 } }
    else .next { s with fbuf := s.fbuf ++ [b], fkind := .data,
                        response := some { rstat := .ok, rdata := BitVec.ofNat 32 (s.fbuf.length + 1) } }

/-- LOAD_FRAME (rule R106): its FB_CLEAR and FB_PUSH commands leave exactly the given bits in FBUF, whatever Frame stood there, and
leave the capture, the classification and the PulseTrain alone (rules R214, R215, R295). -/
def Obligations.LoadFrameLoadsBits : Prop :=
  ∀ (s : State) (bits : List Bool), bits.length ≤ s.cfg.fbufDepth →
    ∃ t, execAll (loadFrame bits) s = .next t ∧ t.fbuf = bits ∧ t.fkind = (if bits = [] then .none else .data) ∧
      t.ftag = .unknown ∧ t.dstat = .none ∧ t.ebuf = s.ebuf ∧ t.segState = s.segState ∧ t.capResult = s.capResult ∧
      t.ctag = s.ctag ∧ t.crep = s.crep ∧ t.cvalid = s.cvalid ∧ t.estat = s.estat ∧ t.pbuf = s.pbuf ∧ t.cfg = s.cfg

/-- ENCODE (rules R216, R217, R218): UNKNOWN fails with BAD_TAG whatever FLEN is, an empty Frame fails with EMPTY, both leaving
PLEN = 0; otherwise PBUF is one (mark, space) pair per bit and nothing else, and its length is the response. -/
def Obligations.EncodeWritesTrain : Prop :=
  (encode (.encode .unknown) = (0x80000000, 0) ∧ encode (.encode .aeha) = (0x84000000, 0) ∧
    encode (.encode .nec) = (0x88000000, 0) ∧ encode (.encode .sony) = (0x8C000000, 0)) ∧
  ∀ s : State,
    exec (.encode .unknown) s = .next
      { s with estat := .badTag, pbuf := [], response := some { rstat := .badTag, rdata := 0 } } ∧
    ∀ p : Protocol,
      (s.fbuf = [] → exec (.encode p.tag) s = .next
        { s with estat := .empty, pbuf := [], response := some { rstat := .empty, rdata := 0 } }) ∧
      (s.fbuf ≠ [] → ∃ train : List Duration,
        exec (.encode p.tag) s = .next
          { s with estat := .ok, pbuf := train,
                   response := some { rstat := .ok, rdata := BitVec.ofNat 32 (2 * s.fbuf.length) } } ∧
        train.length = 2 * s.fbuf.length ∧
        ∀ (k : Nat) (b : Bool), s.fbuf[k]? = some b →
          train[2 * k]? = some (if b then s.cfg.rom.unit p else s.cfg.rom.short p) ∧
          train[2 * k + 1]? = some (s.cfg.rom.unit p))

/-- The scenario of rule R219: the bits of 0xA5 encoded as AEHA. -/
def Obligations.EncodesA5AsAeha : Prop :=
  ∀ s : State, s.cfg.rom = Rom.default → s.fbuf = [true, false, true, false, false, true, false, true] →
    ∃ t, exec (.encode .aeha) s = .next t ∧
      t.pbuf = [425, 425, 141, 425, 425, 425, 141, 425, 141, 425, 425, 425, 141, 425, 425, 425]

/-! ### No-operation and access -/

/-- NOP (rule R240). -/
def Obligations.NopDoesNothing : Prop :=
  encode .nop = (0x00000000, 0) ∧
  ∀ s : State, exec .nop s = .next { s with response := some { rstat := .ok, rdata := 0 } }

/-- The register map of rules R51 to R56 as RD_REG shows it (rule R241), address 0x0012 apart: every field of every layout, every
constant, and INDEX at every unmapped address. -/
def Obligations.RegisterMap : Prop :=
  (∀ a : Index, (encode (.rdReg a)).1.toNat = 0xB0000000 + a.toNat) ∧
  ∀ s : State,
    let shows (a : Index) (v : Word) : Prop := exec (.rdReg a) s = .next { s with response := some { rstat := .ok, rdata := v } }
    shows 0x00 (BitVec.ofNat 32 ((segStateCode s.segState).toNat + 16 * (capResultCode s.capResult).toNat)) ∧
    shows 0x01 (BitVec.ofNat 32 s.ebuf.length) ∧
    shows 0x02 (BitVec.ofNat 32 ((tagCode s.ctag).toNat + 4 * s.crep.toNat + 8 * s.cvalid.toNat)) ∧
    shows 0x03 (BitVec.ofNat 32 ((dstatCode s.dstat).toNat + 16 * (tagCode s.ftag).toNat + 64 * (fkindCode s.fkind).toNat)) ∧
    shows 0x04 (BitVec.ofNat 32 s.fbuf.length) ∧
    shows 0x05 (BitVec.ofNat 32 (estatCode s.estat).toNat) ∧
    shows 0x06 (BitVec.ofNat 32 s.pbuf.length) ∧
    shows 0x07 (BitVec.ofNat 32 s.cfg.ebufDepth) ∧
    shows 0x08 (BitVec.ofNat 32 s.cfg.fbufDepth) ∧
    shows 0x09 (BitVec.ofNat 32 (2 * s.cfg.fbufDepth)) ∧
    shows 0x0A s.cfg.rom.maxGap ∧ shows 0x0B s.cfg.rom.unitAeha ∧ shows 0x0C s.cfg.rom.unitNec ∧
    shows 0x0D s.cfg.rom.unitSony ∧ shows 0x0E s.cfg.rom.shortAeha ∧ shows 0x0F s.cfg.rom.shortNec ∧
    shows 0x10 s.cfg.rom.shortSony ∧ shows 0x11 s.cfg.rom.repeatNec ∧
    ∀ a : Index, 0x12 < a.toNat → exec (.rdReg a) s = .next { s with response := some { rstat := .index, rdata := 0 } }

/-- ROM_TOL_PCT at address 0x0012 (rule R56): the integer `100 × TOL`, and a refusal where there is none. That a value of 2^32 or more
is refused too is the model's choice (log entry 12). -/
def Obligations.TolerancePercentRegister : Prop :=
  ∀ s : State, s.cfg.rom.tolDen ≠ 0 →
    (∀ pct : Nat, 100 * s.cfg.rom.tolNum = pct * s.cfg.rom.tolDen → pct < 2 ^ 32 →
      exec (.rdReg 0x12) s = .next { s with response := some { rstat := .ok, rdata := BitVec.ofNat 32 pct } }) ∧
    ((∀ pct : Nat, pct < 2 ^ 32 → 100 * s.cfg.rom.tolNum ≠ pct * s.cfg.rom.tolDen) →
      exec (.rdReg 0x12) s = .refused .tolNotReadable)

/-- The constants of the default instance at addresses 0x0007 to 0x0012 (rules R13, R56). -/
def Obligations.DefaultConstantRegisters : Prop :=
  ∀ s : State, s.cfg = Config.default →
    ∀ row ∈ [((0x07 : Index), (0x400 : Word)), (0x08, 0x200), (0x09, 0x400), (0x0A, 0x2710), (0x0B, 0x1A9), (0x0C, 0x232),
        (0x0D, 0x258), (0x0E, 0x8D), (0x0F, 0x119), (0x10, 0x12C), (0x11, 0x8CA), (0x12, 0x23)],
      exec (.rdReg row.1) s = .next { s with response := some { rstat := .ok, rdata := row.2 } }

/-- RD_EDUR and RD_ELVL (rules R242, R243): the duration and the level of an entry below ECOUNT, INDEX at or beyond it. -/
def Obligations.EdgeReads : Prop :=
  (∀ k : Index, (encode (.rdEdur k)).1.toNat = 0xB0100000 + k.toNat ∧ (encode (.rdElvl k)).1.toNat = 0xB0200000 + k.toNat) ∧
  ∀ (s : State) (k : Index),
    (∀ e, s.ebuf[k.toNat]? = some e →
      exec (.rdEdur k) s = .next { s with response := some { rstat := .ok, rdata := e.dur } } ∧
      exec (.rdElvl k) s = .next { s with response := some { rstat := .ok, rdata := match e.lvl with | .low => 0 | .high => 1 | .timeout => 2 } }) ∧
    (s.ebuf.length ≤ k.toNat →
      exec (.rdEdur k) s = .next { s with response := some { rstat := .index, rdata := 0 } } ∧
      exec (.rdElvl k) s = .next { s with response := some { rstat := .index, rdata := 0 } })

/-- RD_FBIT and RD_PULSE (rules R244, R245): a bit below FLEN and a duration below PLEN, INDEX at or beyond the count. -/
def Obligations.FrameAndPulseReads : Prop :=
  (∀ k : Index, (encode (.rdFbit k)).1.toNat = 0xB0300000 + k.toNat ∧ (encode (.rdPulse k)).1.toNat = 0xB0400000 + k.toNat) ∧
  ∀ (s : State) (k : Index),
    (∀ b, s.fbuf[k.toNat]? = some b →
      exec (.rdFbit k) s = .next { s with response := some { rstat := .ok, rdata := if b then 1 else 0 } }) ∧
    (∀ d, s.pbuf[k.toNat]? = some d →
      exec (.rdPulse k) s = .next { s with response := some { rstat := .ok, rdata := d } }) ∧
    (s.fbuf.length ≤ k.toNat → exec (.rdFbit k) s = .next { s with response := some { rstat := .index, rdata := 0 } }) ∧
    (s.pbuf.length ≤ k.toNat → exec (.rdPulse k) s = .next { s with response := some { rstat := .index, rdata := 0 } })

/-- NOP, CMP, ROM_LOOKUP and the reads write no state, and repeating one gives the same response (rules R79, R246). -/
def Obligations.ReadsWriteNothing : Prop :=
  ∀ (i : Instr) (s t : State), writesNothing i = true → exec i s = .next t →
    t = { s with response := t.response } ∧ exec i t = .next t

/-- Inserting a command that writes no state anywhere in a sequence, or removing it, changes no response of any other command
(rule R246), on an instance that can show its constants (log entries 11 and 12). -/
def Obligations.InsertedReadIsInvisible : Prop :=
  ∀ (before after : List Instr) (i : Instr) (s : State), writesNothing i = true → s.cfg.readable = true →
    (responsesOf (before ++ i :: after) s).length = before.length + after.length + 1 ∧
    (responsesOf (before ++ i :: after) s).eraseIdx before.length = responsesOf (before ++ after) s
end

