-- ==== Sys2Proof/Laws/Encoding.lean ====
section
/-! SUPPORT. The fields of a packed command word, and a word as the pack of its fields (rule R91). -/

namespace Sys2Proof

section Fields

variable (op : BitVec 4) (tag lvl : BitVec 2) (bit : BitVec 1) (sel : BitVec 3) (rsv : BitVec 4) (idx : Index)

/-- The number a packed word is. -/
theorem packFields_toNat : (packFields op tag lvl bit sel rsv idx).toNat =
    op.toNat * 2 ^ 28 + tag.toNat * 2 ^ 26 + lvl.toNat * 2 ^ 24 + bit.toNat * 2 ^ 23 + sel.toNat * 2 ^ 20 +
      rsv.toNat * 2 ^ 16 + idx.toNat := by
  have h1 := op.isLt; have h2 := tag.isLt; have h3 := lvl.isLt; have h4 := bit.isLt
  have h5 := sel.isLt; have h6 := rsv.isLt; have h7 := idx.isLt
  have join : ∀ a b n : Nat, b < 2 ^ n → (a <<< n ||| b) = a * 2 ^ n + b := by
    intro a b n hb
    rw [← Nat.shiftLeft_add_eq_or_of_lt hb, Nat.shiftLeft_eq]
  simp only [packFields, BitVec.toNat_append]
  rw [join _ _ 16 h7, join _ _ 4 h6, join _ _ 3 h5, join _ _ 1 h4, join _ _ 2 h3, join _ _ 2 h2]
  omega

@[simp] theorem opField_pack : opField (packFields op tag lvl bit sel rsv idx) = op := by
  apply BitVec.eq_of_toNat_eq
  have h2 := tag.isLt; have h3 := lvl.isLt; have h4 := bit.isLt
  have h5 := sel.isLt; have h6 := rsv.isLt; have h7 := idx.isLt; have h1 := op.isLt
  simp only [opField, BitVec.extractLsb'_toNat, packFields_toNat, Nat.shiftRight_eq_div_pow]
  omega

@[simp] theorem tagField_pack : tagField (packFields op tag lvl bit sel rsv idx) = tag := by
  apply BitVec.eq_of_toNat_eq
  have h2 := tag.isLt; have h3 := lvl.isLt; have h4 := bit.isLt
  have h5 := sel.isLt; have h6 := rsv.isLt; have h7 := idx.isLt; have h1 := op.isLt
  simp only [tagField, BitVec.extractLsb'_toNat, packFields_toNat, Nat.shiftRight_eq_div_pow]
  omega

@[simp] theorem lvlField_pack : lvlField (packFields op tag lvl bit sel rsv idx) = lvl := by
  apply BitVec.eq_of_toNat_eq
  have h2 := tag.isLt; have h3 := lvl.isLt; have h4 := bit.isLt
  have h5 := sel.isLt; have h6 := rsv.isLt; have h7 := idx.isLt; have h1 := op.isLt
  simp only [lvlField, BitVec.extractLsb'_toNat, packFields_toNat, Nat.shiftRight_eq_div_pow]
  omega

@[simp] theorem bitField_pack : bitField (packFields op tag lvl bit sel rsv idx) = bit := by
  apply BitVec.eq_of_toNat_eq
  have h2 := tag.isLt; have h3 := lvl.isLt; have h4 := bit.isLt
  have h5 := sel.isLt; have h6 := rsv.isLt; have h7 := idx.isLt; have h1 := op.isLt
  simp only [bitField, BitVec.extractLsb'_toNat, packFields_toNat, Nat.shiftRight_eq_div_pow]
  omega

@[simp] theorem selField_pack : selField (packFields op tag lvl bit sel rsv idx) = sel := by
  apply BitVec.eq_of_toNat_eq
  have h2 := tag.isLt; have h3 := lvl.isLt; have h4 := bit.isLt
  have h5 := sel.isLt; have h6 := rsv.isLt; have h7 := idx.isLt; have h1 := op.isLt
  simp only [selField, BitVec.extractLsb'_toNat, packFields_toNat, Nat.shiftRight_eq_div_pow]
  omega

@[simp] theorem rsvField_pack : rsvField (packFields op tag lvl bit sel rsv idx) = rsv := by
  apply BitVec.eq_of_toNat_eq
  have h2 := tag.isLt; have h3 := lvl.isLt; have h4 := bit.isLt
  have h5 := sel.isLt; have h6 := rsv.isLt; have h7 := idx.isLt; have h1 := op.isLt
  simp only [rsvField, BitVec.extractLsb'_toNat, packFields_toNat, Nat.shiftRight_eq_div_pow]
  omega

@[simp] theorem idxField_pack : idxField (packFields op tag lvl bit sel rsv idx) = idx := by
  apply BitVec.eq_of_toNat_eq
  have h2 := tag.isLt; have h3 := lvl.isLt; have h4 := bit.isLt
  have h5 := sel.isLt; have h6 := rsv.isLt; have h7 := idx.isLt; have h1 := op.isLt
  simp only [idxField, BitVec.extractLsb'_toNat, packFields_toNat, Nat.shiftRight_eq_div_pow]
  omega

end Fields

/-- A word is the pack of its fields. -/
theorem packFields_fields (w : Word) :
    packFields (opField w) (tagField w) (lvlField w) (bitField w) (selField w) (rsvField w) (idxField w) = w := by
  apply BitVec.eq_of_toNat_eq
  rw [packFields_toNat]
  have h := w.isLt
  simp only [opField, tagField, lvlField, bitField, selField, rsvField, idxField, BitVec.extractLsb'_toNat,
    Nat.shiftRight_eq_div_pow]
  omega

/-- Masking a packed word masks each field (rule R108). -/
theorem packFields_and (op op' : BitVec 4) (tag tag' lvl lvl' : BitVec 2) (bit bit' : BitVec 1) (sel sel' : BitVec 3)
    (rsv rsv' : BitVec 4) (idx idx' : Index) :
    packFields op tag lvl bit sel rsv idx &&& packFields op' tag' lvl' bit' sel' rsv' idx' =
      packFields (op &&& op') (tag &&& tag') (lvl &&& lvl') (bit &&& bit') (sel &&& sel') (rsv &&& rsv') (idx &&& idx') := by
  have join {m n : Nat} (a b : BitVec m) (c d : BitVec n) : (a ++ c) &&& (b ++ d) = (a &&& b) ++ (c &&& d) := BitVec.and_append
  exact (join _ _ idx idx').trans (congrArg (· ++ (idx &&& idx')) ((join _ _ rsv rsv').trans (congrArg (· ++ (rsv &&& rsv'))
    ((join _ _ sel sel').trans (congrArg (· ++ (sel &&& sel')) ((join _ _ bit bit').trans (congrArg (· ++ (bit &&& bit'))
      ((join _ _ lvl lvl').trans (congrArg (· ++ (lvl &&& lvl')) (join op op' tag tag'))))))))))

/-- A word's fields are determined by it (rule R91). -/
theorem packFields_inj {op op' : BitVec 4} {tag tag' lvl lvl' : BitVec 2} {bit bit' : BitVec 1} {sel sel' : BitVec 3}
    {rsv rsv' : BitVec 4} {idx idx' : Index} :
    packFields op tag lvl bit sel rsv idx = packFields op' tag' lvl' bit' sel' rsv' idx' ↔
      op = op' ∧ tag = tag' ∧ lvl = lvl' ∧ bit = bit' ∧ sel = sel' ∧ rsv = rsv' ∧ idx = idx' := by
  constructor
  · intro h
    refine ⟨?_, ?_, ?_, ?_, ?_, ?_, ?_⟩
    · simpa using congrArg opField h
    · simpa using congrArg tagField h
    · simpa using congrArg lvlField h
    · simpa using congrArg bitField h
    · simpa using congrArg selField h
    · simpa using congrArg rsvField h
    · simpa using congrArg idxField h
  · rintro ⟨rfl, rfl, rfl, rfl, rfl, rfl, rfl⟩; rfl

@[simp] theorem levelOf_levelCode (l : Level) : levelOf (levelCode l) = some l := by cases l <;> rfl

@[simp] theorem tagOf_tagCode (t : Tag) : tagOf (tagCode t) = t := by cases t <;> rfl

@[simp] theorem tagCode_tagOf (b : BitVec 2) : tagCode (tagOf b) = b := by revert b; decide

@[simp] theorem bitOfCode_bitCode (b : Bool) : bitOfCode (bitCode b) = b := by cases b <;> rfl

@[simp] theorem bitCode_bitOfCode (b : BitVec 1) : bitCode (bitOfCode b) = b := by revert b; decide

/-- A level code names a level exactly when it is that level's code (rule R36). -/
theorem levelOf_eq_some {b : BitVec 2} {l : Level} : levelOf b = some l ↔ b = levelCode l := by
  revert b; cases l <;> decide

/-- Code 3 is the one that names no level (rule R96). -/
theorem levelOf_eq_none {b : BitVec 2} : levelOf b = none ↔ b = 3 := by revert b; decide

/-- What the unused-field check answers (rule R95). -/
theorem whenUnusedZero_eq_ok {z : Bool} {i j : Instr} : whenUnusedZero z i = .ok j ↔ z = true ∧ i = j := by
  cases z <;> simp [whenUnusedZero]

end Sys2Proof
end

