-- ==== Sys2Proof/Laws/State.lean ====
section
/-! SUPPORT. What each named update of the state leaves in each field: one lemma per field per update, so that no later proof
unfolds a record update. -/

namespace Sys2Proof.Machine

/-! ### withResponse -/

@[simp] theorem withResponse_inputs (s : State) (st : Status) (v : Word) : (s.withResponse st v).inputs = s.inputs := rfl
@[simp] theorem withResponse_response (s : State) (st : Status) (v : Word) : (s.withResponse st v).response = some { rstat := st, rdata := v } := rfl
@[simp] theorem withResponse_cfg (s : State) (st : Status) (v : Word) : (s.withResponse st v).cfg = s.cfg := rfl
@[simp] theorem withResponse_segState (s : State) (st : Status) (v : Word) : (s.withResponse st v).segState = s.segState := rfl
@[simp] theorem withResponse_capResult (s : State) (st : Status) (v : Word) : (s.withResponse st v).capResult = s.capResult := rfl
@[simp] theorem withResponse_ebuf (s : State) (st : Status) (v : Word) : (s.withResponse st v).ebuf = s.ebuf := rfl
@[simp] theorem withResponse_ctag (s : State) (st : Status) (v : Word) : (s.withResponse st v).ctag = s.ctag := rfl
@[simp] theorem withResponse_crep (s : State) (st : Status) (v : Word) : (s.withResponse st v).crep = s.crep := rfl
@[simp] theorem withResponse_cvalid (s : State) (st : Status) (v : Word) : (s.withResponse st v).cvalid = s.cvalid := rfl
@[simp] theorem withResponse_dstat (s : State) (st : Status) (v : Word) : (s.withResponse st v).dstat = s.dstat := rfl
@[simp] theorem withResponse_ftag (s : State) (st : Status) (v : Word) : (s.withResponse st v).ftag = s.ftag := rfl
@[simp] theorem withResponse_fkind (s : State) (st : Status) (v : Word) : (s.withResponse st v).fkind = s.fkind := rfl
@[simp] theorem withResponse_fbuf (s : State) (st : Status) (v : Word) : (s.withResponse st v).fbuf = s.fbuf := rfl
@[simp] theorem withResponse_estat (s : State) (st : Status) (v : Word) : (s.withResponse st v).estat = s.estat := rfl
@[simp] theorem withResponse_pbuf (s : State) (st : Status) (v : Word) : (s.withResponse st v).pbuf = s.pbuf := rfl

/-! ### beginCapture -/

@[simp] theorem beginCapture_inputs (s : State) : s.beginCapture.inputs = s.inputs := rfl
@[simp] theorem beginCapture_response (s : State) : s.beginCapture.response = s.response := rfl
@[simp] theorem beginCapture_cfg (s : State) : s.beginCapture.cfg = s.cfg := rfl
@[simp] theorem beginCapture_segState (s : State) : s.beginCapture.segState = .capturing := rfl
@[simp] theorem beginCapture_capResult (s : State) : s.beginCapture.capResult = .none := rfl
@[simp] theorem beginCapture_ebuf (s : State) : s.beginCapture.ebuf = [] := rfl
@[simp] theorem beginCapture_ctag (s : State) : s.beginCapture.ctag = s.ctag := rfl
@[simp] theorem beginCapture_crep (s : State) : s.beginCapture.crep = s.crep := rfl
@[simp] theorem beginCapture_cvalid (s : State) : s.beginCapture.cvalid = false := rfl
@[simp] theorem beginCapture_dstat (s : State) : s.beginCapture.dstat = s.dstat := rfl
@[simp] theorem beginCapture_ftag (s : State) : s.beginCapture.ftag = s.ftag := rfl
@[simp] theorem beginCapture_fkind (s : State) : s.beginCapture.fkind = s.fkind := rfl
@[simp] theorem beginCapture_fbuf (s : State) : s.beginCapture.fbuf = s.fbuf := rfl
@[simp] theorem beginCapture_estat (s : State) : s.beginCapture.estat = s.estat := rfl
@[simp] theorem beginCapture_pbuf (s : State) : s.beginCapture.pbuf = s.pbuf := rfl

/-! ### pushEdge -/

@[simp] theorem pushEdge_inputs (s : State) (e : Edge) : (s.pushEdge e).inputs = s.inputs := rfl
@[simp] theorem pushEdge_response (s : State) (e : Edge) : (s.pushEdge e).response = s.response := rfl
@[simp] theorem pushEdge_cfg (s : State) (e : Edge) : (s.pushEdge e).cfg = s.cfg := rfl
@[simp] theorem pushEdge_segState (s : State) (e : Edge) : (s.pushEdge e).segState = s.segState := rfl
@[simp] theorem pushEdge_capResult (s : State) (e : Edge) : (s.pushEdge e).capResult = s.capResult := rfl
@[simp] theorem pushEdge_ebuf (s : State) (e : Edge) : (s.pushEdge e).ebuf = s.ebuf ++ [e] := rfl
@[simp] theorem pushEdge_ctag (s : State) (e : Edge) : (s.pushEdge e).ctag = s.ctag := rfl
@[simp] theorem pushEdge_crep (s : State) (e : Edge) : (s.pushEdge e).crep = s.crep := rfl
@[simp] theorem pushEdge_cvalid (s : State) (e : Edge) : (s.pushEdge e).cvalid = s.cvalid := rfl
@[simp] theorem pushEdge_dstat (s : State) (e : Edge) : (s.pushEdge e).dstat = s.dstat := rfl
@[simp] theorem pushEdge_ftag (s : State) (e : Edge) : (s.pushEdge e).ftag = s.ftag := rfl
@[simp] theorem pushEdge_fkind (s : State) (e : Edge) : (s.pushEdge e).fkind = s.fkind := rfl
@[simp] theorem pushEdge_fbuf (s : State) (e : Edge) : (s.pushEdge e).fbuf = s.fbuf := rfl
@[simp] theorem pushEdge_estat (s : State) (e : Edge) : (s.pushEdge e).estat = s.estat := rfl
@[simp] theorem pushEdge_pbuf (s : State) (e : Edge) : (s.pushEdge e).pbuf = s.pbuf := rfl

/-! ### endCapture -/

@[simp] theorem endCapture_inputs (s : State) (r : CapResult) : (s.endCapture r).inputs = s.inputs := rfl
@[simp] theorem endCapture_response (s : State) (r : CapResult) : (s.endCapture r).response = s.response := rfl
@[simp] theorem endCapture_cfg (s : State) (r : CapResult) : (s.endCapture r).cfg = s.cfg := rfl
@[simp] theorem endCapture_segState (s : State) (r : CapResult) : (s.endCapture r).segState = .done := rfl
@[simp] theorem endCapture_capResult (s : State) (r : CapResult) : (s.endCapture r).capResult = r := rfl
@[simp] theorem endCapture_ebuf (s : State) (r : CapResult) : (s.endCapture r).ebuf = s.ebuf := rfl
@[simp] theorem endCapture_ctag (s : State) (r : CapResult) : (s.endCapture r).ctag = s.ctag := rfl
@[simp] theorem endCapture_crep (s : State) (r : CapResult) : (s.endCapture r).crep = s.crep := rfl
@[simp] theorem endCapture_cvalid (s : State) (r : CapResult) : (s.endCapture r).cvalid = s.cvalid := rfl
@[simp] theorem endCapture_dstat (s : State) (r : CapResult) : (s.endCapture r).dstat = s.dstat := rfl
@[simp] theorem endCapture_ftag (s : State) (r : CapResult) : (s.endCapture r).ftag = s.ftag := rfl
@[simp] theorem endCapture_fkind (s : State) (r : CapResult) : (s.endCapture r).fkind = s.fkind := rfl
@[simp] theorem endCapture_fbuf (s : State) (r : CapResult) : (s.endCapture r).fbuf = s.fbuf := rfl
@[simp] theorem endCapture_estat (s : State) (r : CapResult) : (s.endCapture r).estat = s.estat := rfl
@[simp] theorem endCapture_pbuf (s : State) (r : CapResult) : (s.endCapture r).pbuf = s.pbuf := rfl

/-! ### setClass -/

@[simp] theorem setClass_inputs (s : State) (tag : Tag) (rep : Bool) : (s.setClass tag rep).inputs = s.inputs := rfl
@[simp] theorem setClass_response (s : State) (tag : Tag) (rep : Bool) : (s.setClass tag rep).response = s.response := rfl
@[simp] theorem setClass_cfg (s : State) (tag : Tag) (rep : Bool) : (s.setClass tag rep).cfg = s.cfg := rfl
@[simp] theorem setClass_segState (s : State) (tag : Tag) (rep : Bool) : (s.setClass tag rep).segState = s.segState := rfl
@[simp] theorem setClass_capResult (s : State) (tag : Tag) (rep : Bool) : (s.setClass tag rep).capResult = s.capResult := rfl
@[simp] theorem setClass_ebuf (s : State) (tag : Tag) (rep : Bool) : (s.setClass tag rep).ebuf = s.ebuf := rfl
@[simp] theorem setClass_ctag (s : State) (tag : Tag) (rep : Bool) : (s.setClass tag rep).ctag = tag := rfl
@[simp] theorem setClass_crep (s : State) (tag : Tag) (rep : Bool) : (s.setClass tag rep).crep = rep := rfl
@[simp] theorem setClass_cvalid (s : State) (tag : Tag) (rep : Bool) : (s.setClass tag rep).cvalid = true := rfl
@[simp] theorem setClass_dstat (s : State) (tag : Tag) (rep : Bool) : (s.setClass tag rep).dstat = s.dstat := rfl
@[simp] theorem setClass_ftag (s : State) (tag : Tag) (rep : Bool) : (s.setClass tag rep).ftag = s.ftag := rfl
@[simp] theorem setClass_fkind (s : State) (tag : Tag) (rep : Bool) : (s.setClass tag rep).fkind = s.fkind := rfl
@[simp] theorem setClass_fbuf (s : State) (tag : Tag) (rep : Bool) : (s.setClass tag rep).fbuf = s.fbuf := rfl
@[simp] theorem setClass_estat (s : State) (tag : Tag) (rep : Bool) : (s.setClass tag rep).estat = s.estat := rfl
@[simp] theorem setClass_pbuf (s : State) (tag : Tag) (rep : Bool) : (s.setClass tag rep).pbuf = s.pbuf := rfl

/-! ### commitFrame -/

@[simp] theorem commitFrame_inputs (s : State) (d : DStat) (tag : Tag) (kind : FKind) (bits : List Bool) : (s.commitFrame d tag kind bits).inputs = s.inputs := rfl
@[simp] theorem commitFrame_response (s : State) (d : DStat) (tag : Tag) (kind : FKind) (bits : List Bool) : (s.commitFrame d tag kind bits).response = s.response := rfl
@[simp] theorem commitFrame_cfg (s : State) (d : DStat) (tag : Tag) (kind : FKind) (bits : List Bool) : (s.commitFrame d tag kind bits).cfg = s.cfg := rfl
@[simp] theorem commitFrame_segState (s : State) (d : DStat) (tag : Tag) (kind : FKind) (bits : List Bool) : (s.commitFrame d tag kind bits).segState = s.segState := rfl
@[simp] theorem commitFrame_capResult (s : State) (d : DStat) (tag : Tag) (kind : FKind) (bits : List Bool) : (s.commitFrame d tag kind bits).capResult = s.capResult := rfl
@[simp] theorem commitFrame_ebuf (s : State) (d : DStat) (tag : Tag) (kind : FKind) (bits : List Bool) : (s.commitFrame d tag kind bits).ebuf = s.ebuf := rfl
@[simp] theorem commitFrame_ctag (s : State) (d : DStat) (tag : Tag) (kind : FKind) (bits : List Bool) : (s.commitFrame d tag kind bits).ctag = s.ctag := rfl
@[simp] theorem commitFrame_crep (s : State) (d : DStat) (tag : Tag) (kind : FKind) (bits : List Bool) : (s.commitFrame d tag kind bits).crep = s.crep := rfl
@[simp] theorem commitFrame_cvalid (s : State) (d : DStat) (tag : Tag) (kind : FKind) (bits : List Bool) : (s.commitFrame d tag kind bits).cvalid = s.cvalid := rfl
@[simp] theorem commitFrame_dstat (s : State) (d : DStat) (tag : Tag) (kind : FKind) (bits : List Bool) : (s.commitFrame d tag kind bits).dstat = d := rfl
@[simp] theorem commitFrame_ftag (s : State) (d : DStat) (tag : Tag) (kind : FKind) (bits : List Bool) : (s.commitFrame d tag kind bits).ftag = tag := rfl
@[simp] theorem commitFrame_fkind (s : State) (d : DStat) (tag : Tag) (kind : FKind) (bits : List Bool) : (s.commitFrame d tag kind bits).fkind = kind := rfl
@[simp] theorem commitFrame_fbuf (s : State) (d : DStat) (tag : Tag) (kind : FKind) (bits : List Bool) : (s.commitFrame d tag kind bits).fbuf = bits := rfl
@[simp] theorem commitFrame_estat (s : State) (d : DStat) (tag : Tag) (kind : FKind) (bits : List Bool) : (s.commitFrame d tag kind bits).estat = s.estat := rfl
@[simp] theorem commitFrame_pbuf (s : State) (d : DStat) (tag : Tag) (kind : FKind) (bits : List Bool) : (s.commitFrame d tag kind bits).pbuf = s.pbuf := rfl

/-! ### pushBit -/

@[simp] theorem pushBit_inputs (s : State) (b : Bool) : (s.pushBit b).inputs = s.inputs := rfl
@[simp] theorem pushBit_response (s : State) (b : Bool) : (s.pushBit b).response = s.response := rfl
@[simp] theorem pushBit_cfg (s : State) (b : Bool) : (s.pushBit b).cfg = s.cfg := rfl
@[simp] theorem pushBit_segState (s : State) (b : Bool) : (s.pushBit b).segState = s.segState := rfl
@[simp] theorem pushBit_capResult (s : State) (b : Bool) : (s.pushBit b).capResult = s.capResult := rfl
@[simp] theorem pushBit_ebuf (s : State) (b : Bool) : (s.pushBit b).ebuf = s.ebuf := rfl
@[simp] theorem pushBit_ctag (s : State) (b : Bool) : (s.pushBit b).ctag = s.ctag := rfl
@[simp] theorem pushBit_crep (s : State) (b : Bool) : (s.pushBit b).crep = s.crep := rfl
@[simp] theorem pushBit_cvalid (s : State) (b : Bool) : (s.pushBit b).cvalid = s.cvalid := rfl
@[simp] theorem pushBit_dstat (s : State) (b : Bool) : (s.pushBit b).dstat = s.dstat := rfl
@[simp] theorem pushBit_ftag (s : State) (b : Bool) : (s.pushBit b).ftag = s.ftag := rfl
@[simp] theorem pushBit_fkind (s : State) (b : Bool) : (s.pushBit b).fkind = .data := rfl
@[simp] theorem pushBit_fbuf (s : State) (b : Bool) : (s.pushBit b).fbuf = s.fbuf ++ [b] := rfl
@[simp] theorem pushBit_estat (s : State) (b : Bool) : (s.pushBit b).estat = s.estat := rfl
@[simp] theorem pushBit_pbuf (s : State) (b : Bool) : (s.pushBit b).pbuf = s.pbuf := rfl

/-! ### writeTrain -/

@[simp] theorem writeTrain_inputs (s : State) (e : EStat) (train : List Duration) : (s.writeTrain e train).inputs = s.inputs := rfl
@[simp] theorem writeTrain_response (s : State) (e : EStat) (train : List Duration) : (s.writeTrain e train).response = s.response := rfl
@[simp] theorem writeTrain_cfg (s : State) (e : EStat) (train : List Duration) : (s.writeTrain e train).cfg = s.cfg := rfl
@[simp] theorem writeTrain_segState (s : State) (e : EStat) (train : List Duration) : (s.writeTrain e train).segState = s.segState := rfl
@[simp] theorem writeTrain_capResult (s : State) (e : EStat) (train : List Duration) : (s.writeTrain e train).capResult = s.capResult := rfl
@[simp] theorem writeTrain_ebuf (s : State) (e : EStat) (train : List Duration) : (s.writeTrain e train).ebuf = s.ebuf := rfl
@[simp] theorem writeTrain_ctag (s : State) (e : EStat) (train : List Duration) : (s.writeTrain e train).ctag = s.ctag := rfl
@[simp] theorem writeTrain_crep (s : State) (e : EStat) (train : List Duration) : (s.writeTrain e train).crep = s.crep := rfl
@[simp] theorem writeTrain_cvalid (s : State) (e : EStat) (train : List Duration) : (s.writeTrain e train).cvalid = s.cvalid := rfl
@[simp] theorem writeTrain_dstat (s : State) (e : EStat) (train : List Duration) : (s.writeTrain e train).dstat = s.dstat := rfl
@[simp] theorem writeTrain_ftag (s : State) (e : EStat) (train : List Duration) : (s.writeTrain e train).ftag = s.ftag := rfl
@[simp] theorem writeTrain_fkind (s : State) (e : EStat) (train : List Duration) : (s.writeTrain e train).fkind = s.fkind := rfl
@[simp] theorem writeTrain_fbuf (s : State) (e : EStat) (train : List Duration) : (s.writeTrain e train).fbuf = s.fbuf := rfl
@[simp] theorem writeTrain_estat (s : State) (e : EStat) (train : List Duration) : (s.writeTrain e train).estat = e := rfl
@[simp] theorem writeTrain_pbuf (s : State) (e : EStat) (train : List Duration) : (s.writeTrain e train).pbuf = train := rfl

/-! ### offerInput -/

@[simp] theorem offerInput_inputs (s : State) (x : HostInput) : (s.offerInput x).inputs = x :: s.inputs := rfl
@[simp] theorem offerInput_response (s : State) (x : HostInput) : (s.offerInput x).response = s.response := rfl
@[simp] theorem offerInput_cfg (s : State) (x : HostInput) : (s.offerInput x).cfg = s.cfg := rfl
@[simp] theorem offerInput_segState (s : State) (x : HostInput) : (s.offerInput x).segState = s.segState := rfl
@[simp] theorem offerInput_capResult (s : State) (x : HostInput) : (s.offerInput x).capResult = s.capResult := rfl
@[simp] theorem offerInput_ebuf (s : State) (x : HostInput) : (s.offerInput x).ebuf = s.ebuf := rfl
@[simp] theorem offerInput_ctag (s : State) (x : HostInput) : (s.offerInput x).ctag = s.ctag := rfl
@[simp] theorem offerInput_crep (s : State) (x : HostInput) : (s.offerInput x).crep = s.crep := rfl
@[simp] theorem offerInput_cvalid (s : State) (x : HostInput) : (s.offerInput x).cvalid = s.cvalid := rfl
@[simp] theorem offerInput_dstat (s : State) (x : HostInput) : (s.offerInput x).dstat = s.dstat := rfl
@[simp] theorem offerInput_ftag (s : State) (x : HostInput) : (s.offerInput x).ftag = s.ftag := rfl
@[simp] theorem offerInput_fkind (s : State) (x : HostInput) : (s.offerInput x).fkind = s.fkind := rfl
@[simp] theorem offerInput_fbuf (s : State) (x : HostInput) : (s.offerInput x).fbuf = s.fbuf := rfl
@[simp] theorem offerInput_estat (s : State) (x : HostInput) : (s.offerInput x).estat = s.estat := rfl
@[simp] theorem offerInput_pbuf (s : State) (x : HostInput) : (s.offerInput x).pbuf = s.pbuf := rfl

/-! ### applyReset -/

@[simp] theorem applyReset_inputs (s : State) : s.applyReset.inputs = s.inputs := rfl
@[simp] theorem applyReset_response (s : State) : s.applyReset.response = none := rfl
@[simp] theorem applyReset_cfg (s : State) : s.applyReset.cfg = s.cfg := rfl
@[simp] theorem applyReset_segState (s : State) : s.applyReset.segState = .idle := rfl
@[simp] theorem applyReset_capResult (s : State) : s.applyReset.capResult = .none := rfl
@[simp] theorem applyReset_ebuf (s : State) : s.applyReset.ebuf = [] := rfl
@[simp] theorem applyReset_ctag (s : State) : s.applyReset.ctag = .unknown := rfl
@[simp] theorem applyReset_crep (s : State) : s.applyReset.crep = false := rfl
@[simp] theorem applyReset_cvalid (s : State) : s.applyReset.cvalid = false := rfl
@[simp] theorem applyReset_dstat (s : State) : s.applyReset.dstat = .none := rfl
@[simp] theorem applyReset_ftag (s : State) : s.applyReset.ftag = .unknown := rfl
@[simp] theorem applyReset_fkind (s : State) : s.applyReset.fkind = .none := rfl
@[simp] theorem applyReset_fbuf (s : State) : s.applyReset.fbuf = [] := rfl
@[simp] theorem applyReset_estat (s : State) : s.applyReset.estat = .none := rfl
@[simp] theorem applyReset_pbuf (s : State) : s.applyReset.pbuf = [] := rfl

end Sys2Proof.Machine
end

