-- ==== Sys2Proof/Laws/Ops.lean ====
section
/-! SUPPORT. What each shared operation can do, said once: the responses, the buffer reads, the port and the sample reads. -/

namespace Sys2Proof.Machine

@[simp] theorem respondOk_eq (v : Word) (s : State) : respondOk v s = .next (s.withResponse .ok v) := rfl

@[simp] theorem fail_eq (st : Status) (s : State) : fail st s = .next (s.withResponse st 0) := rfl

/-- Writing the response port twice leaves the second response. -/
@[simp] theorem withResponse_withResponse (s : State) (a b : Status) (v w : Word) :
    (s.withResponse a v).withResponse b w = s.withResponse b w := rfl

/-! ### Buffers (rule R57) -/

/-- A cell below the count is read, one at or beyond it is not there. -/
theorem readCell_isSome {α : Type} (cells : List α) (k : Index) : (readCell cells k).isSome = true ↔ k.toNat < cells.length := by
  simp [readCell]

theorem readCell_eq_none {α : Type} (cells : List α) (k : Index) : readCell cells k = none ↔ cells.length ≤ k.toNat := by
  simp [readCell]

/-- A buffer read answers the cell or INDEX, and writes nothing but the response. -/
theorem respondCell_cases (cell : Option Word) (s : State) :
    (∃ v, cell = some v ∧ respondCell cell s = .next (s.withResponse .ok v)) ∨
      (cell = none ∧ respondCell cell s = .next (s.withResponse .index 0)) := by
  cases cell with
  | some v => exact .inl ⟨v, rfl, rfl⟩
  | none => exact .inr ⟨rfl, rfl⟩

/-- The buffers' canonical form, spelled out (rules R34, R44, R47). -/
theorem Memory.wf_iff (s : State) :
    Memory.wf s = true ↔
      s.ebuf.length ≤ s.cfg.ebufDepth ∧ s.fbuf.length ≤ s.cfg.fbufDepth ∧ s.pbuf.length ≤ 2 * s.cfg.fbufDepth := by
  exact decide_eq_true_iff

/-- Reset memory is empty on every instance. -/
theorem resetWith_wf (c : Config) : Memory.wf (State.resetWith c) = true := by
  simp [Memory.wf_iff, State.resetWith]

theorem withResponse_wf (s : State) (st : Status) (v : Word) : Memory.wf (s.withResponse st v) = Memory.wf s := rfl

theorem beginCapture_wf (s : State) (h : Memory.wf s = true) : Memory.wf s.beginCapture = true := by
  rw [Memory.wf_iff] at *
  exact ⟨Nat.zero_le _, h.2⟩

theorem endCapture_wf (s : State) (r : CapResult) : Memory.wf (s.endCapture r) = Memory.wf s := rfl

theorem setClass_wf (s : State) (tag : Tag) (rep : Bool) : Memory.wf (s.setClass tag rep) = Memory.wf s := rfl

theorem offerInput_wf (s : State) (x : HostInput) : Memory.wf (s.offerInput x) = Memory.wf s := rfl

theorem applyReset_wf (s : State) : Memory.wf s.applyReset = true := by
  simp [Memory.wf_iff]

/-- A guarded push keeps EBUF within its depth (rules R22, R127). -/
theorem pushEdge_wf (s : State) (e : Edge) (h : Memory.wf s = true) (room : s.ecount ≠ s.cfg.ebufDepth) :
    Memory.wf (s.pushEdge e) = true := by
  rw [Memory.wf_iff] at *
  simp only [pushEdge_ebuf, pushEdge_cfg, pushEdge_fbuf, pushEdge_pbuf, List.length_append, List.length_singleton]
  exact ⟨by have := h.1; have : s.ebuf.length ≠ s.cfg.ebufDepth := room; omega, h.2⟩

/-- A guarded push keeps FBUF within its depth (rules R22, R215). -/
theorem pushBit_wf (s : State) (b : Bool) (h : Memory.wf s = true) (room : s.flen ≠ s.cfg.fbufDepth) :
    Memory.wf (s.pushBit b) = true := by
  rw [Memory.wf_iff] at *
  simp only [pushBit_ebuf, pushBit_cfg, pushBit_fbuf, pushBit_pbuf, List.length_append, List.length_singleton]
  exact ⟨h.1, by have := h.2.1; have : s.fbuf.length ≠ s.cfg.fbufDepth := room; omega, h.2.2⟩

/-- A committed Frame within FBUF_DEPTH keeps the buffers' form (rules R72, R189). -/
theorem commitFrame_wf (s : State) (d : DStat) (tag : Tag) (kind : FKind) (bits : List Bool) (h : Memory.wf s = true)
    (fits : bits.length ≤ s.cfg.fbufDepth) : Memory.wf (s.commitFrame d tag kind bits) = true := by
  rw [Memory.wf_iff] at *
  exact ⟨h.1, fits, h.2.2⟩

/-- A train within PBUF_DEPTH keeps the buffers' form (rules R22, R73). -/
theorem writeTrain_wf (s : State) (e : EStat) (train : List Duration) (h : Memory.wf s = true)
    (fits : train.length ≤ 2 * s.cfg.fbufDepth) : Memory.wf (s.writeTrain e train) = true := by
  rw [Memory.wf_iff] at *
  exact ⟨h.1, h.2.1, fits⟩

/-! ### The port -/

theorem takeInput_nil {s : State} (h : s.inputs = []) : s.takeInput = none := by simp [State.takeInput, h]

theorem takeInput_cons {s : State} {x : HostInput} {rest : List HostInput} (h : s.inputs = x :: rest) :
    s.takeInput = some (x, { s with inputs := rest }) := by simp [State.takeInput, h]

@[simp] theorem takeInput_offerInput (s : State) (x : HostInput) : (s.offerInput x).takeInput = some (x, s) := rfl

/-- What a command on the port can do: run, or be illegal (rule R101). -/
theorem runCommand_cases (cmd din : Word) (s : State) :
    (∃ i, decode cmd din = .ok i ∧ runCommand cmd din s = exec i s) ∨
      ((∃ e, decode cmd din = .error e) ∧ runCommand cmd din s = .next (s.withResponse .illegal 0)) := by
  unfold runCommand
  cases h : decode cmd din with
  | ok i => exact .inl ⟨i, rfl, rfl⟩
  | error e => exact .inr ⟨⟨e, rfl⟩, rfl⟩

/-! ### Samples (rules R154, R155) -/

/-- A sample is the duration of an entry that exists and is no TIMEOUT entry. -/
theorem sample_eq_some {pulses : List Edge} {j : Nat} {d : Duration} :
    sample pulses j = some d ↔ ∃ e, pulses[j]? = some e ∧ e.lvl ≠ .timeout ∧ e.dur = d := by
  unfold sample
  cases h : pulses[j]? with
  | none => simp
  | some e => by_cases ht : e.lvl = .timeout <;> simp [ht]

/-- The pulse stream starts at entry 1 (rule R19). -/
theorem pulses_getElem? (s : State) (j : Nat) : s.pulses[j]? = s.ebuf[j + 1]? := by
  simp [State.pulses, pulsesOf]

/-- A sample test holds when the sample is there and in the window (rule R155). -/
theorem sampleInWindow_iff {r : Rom} {n : Duration} {o : Option Duration} :
    sampleInWindow r n o = true ↔ ∃ d, o = some d ∧ inWindow r n d = true := by
  cases o <;> simp [sampleInWindow]

end Sys2Proof.Machine
end

