-- ==== Sys2Proof/Laws/Units.lean ====
section
/-! SUPPORT. What the units' functions can do, said once: the comparator predicates as inequalities, how a pushed entry ends a capture,
the shape of an extraction's answer, and the length of a train. -/

namespace Sys2Proof.Machine

/-- The window predicate as its two inequalities (rule R17). -/
theorem inWindow_iff (r : Rom) (n d : Duration) :
    inWindow r n d = true ↔
      n.toNat * r.tolDen ≤ d.toNat * r.tolDen + n.toNat * r.tolNum ∧
        d.toNat * r.tolDen ≤ n.toNat * r.tolDen + n.toNat * r.tolNum := by
  simp [inWindow]

/-- The gap predicate as its inequality (rule R121). -/
theorem isGap_iff (r : Rom) (d : Duration) : isGap r d = true ↔ r.maxGap.toNat < d.toNat := by simp [isGap]

/-- After a stored entry only the capture's end can follow, and it follows exactly on a gap that is not entry 0 (rule R122). -/
theorem endsCapture_append (c : Config) (es : List Edge) (e : Edge) :
    endsCapture c (es ++ [e]) = (decide (1 ≤ es.length) && isGap c.rom e.dur) := by
  simp [endsCapture]

/-- The result code of a sequence with a last entry (rule R123). -/
theorem finalize_append (c : Config) (es : List Edge) (e : Edge) :
    finalize c (es ++ [e]) =
      if es.length = 0 then .noData
      else if e.lvl = .timeout then .short else if isGap c.rom e.dur then .success else .short := by
  unfold finalize
  rw [List.getLast?_concat]
  cases es with
  | nil => rfl
  | cons x xs => simp

/-- The end of an extraction is DATA with the bits or ERR_EMPTY with none (rule R190). -/
theorem endOfFrame_cases (bits : List Bool) :
    (bits ≠ [] ∧ endOfFrame bits = (.data, bits)) ∨ (bits = [] ∧ endOfFrame bits = (.errEmpty, [])) := by
  unfold endOfFrame
  by_cases h : bits = []
  · exact .inr ⟨h, by simp [h]⟩
  · exact .inl ⟨h, by simp [h]⟩

/-- A train has two durations for each bit (rule R217). -/
@[simp] theorem trainOf_length (r : Rom) (p : Protocol) (bits : List Bool) : (trainOf r p bits).length = 2 * bits.length := by
  induction bits with
  | nil => rfl
  | cons b bits ih => simp [trainOf, ih]; omega

@[simp] theorem protocol?_tag (p : Protocol) : p.tag.protocol? = some p := by cases p <;> rfl

/-- A tag names a protocol exactly when it is that protocol's tag (rule R37). -/
theorem protocol?_eq_some {t : Tag} {p : Protocol} : t.protocol? = some p ↔ t = p.tag := by
  cases t <;> cases p <;> decide

end Sys2Proof.Machine
end

