-- ==== Sys2Proof/Laws/Exec.lean ====
section
/-! SUPPORT. Everything a command can do, said once: the inversion of `exec` and of `step`, for the proofs of whole-machine rules. -/

namespace Sys2Proof.Machine

/-- What a command can do to the state, its response aside: one constructor per effect the rules give. -/
inductive Change (s : State) : State → Prop
  /-- a read, or a failure that writes nothing -/
  | same : Change s s
  /-- CAP_START (rule R124) -/
  | began : Change s s.beginCapture
  /-- CAP_PUSH into a full buffer (rule R127) -/
  | overflowed : s.segState = .capturing → s.ebuf.length = s.cfg.ebufDepth → Change s (s.endCapture .overflow)
  /-- CAP_PUSH, the capture goes on (rule R126) -/
  | pushed (e : Edge) : s.segState = .capturing → s.ebuf.length ≠ s.cfg.ebufDepth → e.dur.toNat < 2 ^ s.cfg.durW →
      ¬ (1 ≤ s.ebuf.length ∧ isGap s.cfg.rom e.dur = true) → Change s (s.pushEdge e)
  /-- CAP_PUSH of the gap that ends the capture (rules R122, R126) -/
  | pushedLast (e : Edge) : s.segState = .capturing → s.ebuf.length ≠ s.cfg.ebufDepth → e.dur.toNat < 2 ^ s.cfg.durW →
      1 ≤ s.ebuf.length → isGap s.cfg.rom e.dur = true →
      Change s ((s.pushEdge e).endCapture (if e.lvl = .timeout then .short else .success))
  /-- CAP_STOP (rule R131) -/
  | stopped : s.segState = .capturing → Change s (s.endCapture (finalize s.cfg s.ebuf))
  /-- CLASSIFY (rule R157) -/
  | classified : s.segState ≠ .capturing →
      Change s (s.setClass (classifyPulses s.cfg.rom s.pulses).1 (classifyPulses s.cfg.rom s.pulses).2)
  /-- DECODE without a Frame: PASS or an error (rules R181, R192) -/
  | noFrame (d : DStat) : s.segState ≠ .capturing → d ≠ .none → d ≠ .data → d ≠ .repeatCode →
      Change s (s.commitFrame d .unknown .none [])
  /-- DECODE, the NEC repeat Frame (rule R182) -/
  | repeatFrame : s.segState ≠ .capturing → Change s (s.commitFrame .repeatCode .nec .repeatCode [])
  /-- DECODE, a data Frame (rules R185, R191) -/
  | dataFrame (p : Protocol) (bits : List Bool) : s.segState ≠ .capturing → bits ≠ [] → bits.length ≤ s.cfg.fbufDepth →
      Change s (s.commitFrame .data p.tag .data bits)
  /-- FB_CLEAR (rule R214) -/
  | cleared : Change s (s.commitFrame .none .unknown .none [])
  /-- FB_PUSH (rule R215) -/
  | bit (b : Bool) : s.fbuf.length ≠ s.cfg.fbufDepth → Change s (s.pushBit b)
  /-- ENCODE that fails (rule R216) -/
  | noTrain (e : EStat) : e ≠ .ok → Change s (s.writeTrain e [])
  /-- ENCODE (rules R216, R217) -/
  | train (p : Protocol) : s.fbuf ≠ [] → Change s (s.writeTrain .ok (trainOf s.cfg.rom p s.fbuf))

/-- `DIN[DUR_W-1:0]` has `DUR_W` bits (rule R92). -/
theorem durationOf_lt (c : Config) (din : Word) : (durationOf c din).toNat < 2 ^ c.durW := by
  have h : din.toNat % 2 ^ c.durW < 2 ^ c.durW := Nat.mod_lt _ (Nat.two_pow_pos _)
  simp only [durationOf, BitVec.toNat_ofNat]
  exact Nat.lt_of_le_of_lt (Nat.mod_le _ _) h

/-- What an extraction answers: DATA with 1 to FBUF_DEPTH bits, or an error with none (rules R185 to R192). -/
theorem extractFrom_cases (c : Config) (p : Protocol) (bits : List Bool) (es : List Edge) (hb : bits.length ≤ c.fbufDepth) :
    ((extractFrom c p bits es).1 = .data ∧ (extractFrom c p bits es).2 ≠ [] ∧
        (extractFrom c p bits es).2.length ≤ c.fbufDepth) ∨
      ((extractFrom c p bits es).1 ∈ [DStat.errNoMatch, .errEmpty, .errTimeout, .errFull] ∧
        (extractFrom c p bits es).2 = []) := by
  have ended : ∀ bits : List Bool, bits.length ≤ c.fbufDepth →
      ((endOfFrame bits).1 = .data ∧ (endOfFrame bits).2 ≠ [] ∧ (endOfFrame bits).2.length ≤ c.fbufDepth) ∨
        ((endOfFrame bits).1 ∈ [DStat.errNoMatch, .errEmpty, .errTimeout, .errFull] ∧ (endOfFrame bits).2 = []) := by
    intro bits hb
    rcases endOfFrame_cases bits with ⟨h, e⟩ | ⟨h, e⟩ <;> rw [e]
    · exact .inl ⟨rfl, h, hb⟩
    · exact .inr ⟨by simp, rfl⟩
  have longer : ∀ (bits : List Bool) (b : Bool), bits.length ≤ c.fbufDepth → bits.length ≠ c.fbufDepth →
      (bits ++ [b]).length ≤ c.fbufDepth := by
    intro bits b h1 h2
    simp only [List.length_append, List.length_singleton]; omega
  induction bits, es using extractFrom.induct c p with
  | case1 bits => exact ended _ hb
  | case2 bits mk rest h => simp [extractFrom, h]
  | case3 bits mk rest h1 h2 => simpa only [extractFrom, h1, h2, if_true, if_false] using ended _ hb
  | case4 bits mk rest h1 h2 h3 => simp [extractFrom, h1, h2, h3]
  | case5 bits mk rest h1 h2 b h3 h4 => simp [extractFrom, h1, h2, h3, h4]
  | case6 bits mk h1 h2 b h3 h4 => simpa only [extractFrom, h1, h2, h3, h4, Bool.false_eq_true, if_false] using ended _ (longer _ b hb h4)
  | case7 bits mk h1 h2 b h3 h4 sp rest' h5 => simp [extractFrom, h1, h2, h3, h4, h5]
  | case8 bits mk h1 h2 b h3 h4 sp rest' h5 h6 =>
    simpa only [extractFrom, h1, h2, h3, h4, h5, h6, Bool.false_eq_true, if_true, if_false] using ended _ (longer _ b hb h4)
  | case9 bits mk h1 h2 b h3 h4 sp rest' h5 h6 ih =>
    simpa only [extractFrom, h1, h2, h3, h4, h5, h6, Bool.false_eq_true, if_false] using ih (longer _ b hb h4)

/-- A read answers its cell or INDEX, and changes nothing. -/
theorem respondCell_change {cell : Option Word} {s t : State} (h : respondCell cell s = .next t) :
    ∃ st v, t = s.withResponse st v := by
  rcases respondCell_cases cell s with ⟨v, -, e⟩ | ⟨-, e⟩ <;> rw [e] at h <;> cases h <;> exact ⟨_, _, rfl⟩

/-- What CAP_PUSH does (rules R126, R127). -/
theorem execCapPush_change {l : Level} {din : Word} {s t : State} (h : execCapPush l din s = .next t) :
    ∃ u st v, Change s u ∧ t = u.withResponse st v := by
  simp only [execCapPush, respondOk_eq, fail_eq] at h
  split at h
  · cases h; exact ⟨_, _, _, .same, rfl⟩
  rename_i hc
  have hc : s.segState = .capturing := not_not.mp hc
  split at h
  · rename_i hf; cases h; exact ⟨_, _, _, .overflowed hc hf, rfl⟩
  rename_i hf
  cases h
  refine ⟨_, _, _, ?_, rfl⟩
  have w := durationOf_lt s.cfg din
  simp only [State.afterPush, pushEdge_cfg, pushEdge_ebuf, endsCapture_append, finalize_append]
  by_cases hg : 1 ≤ s.ebuf.length ∧ isGap s.cfg.rom (durationOf s.cfg din) = true
  · simp only [hg.1, hg.2, decide_true, Bool.and_self, if_true, if_neg (Nat.ne_of_gt hg.1)]
    exact .pushedLast ⟨durationOf s.cfg din, l⟩ hc hf w hg.1 hg.2
  · rw [if_neg (by simpa using hg)]
    exact .pushed ⟨durationOf s.cfg din, l⟩ hc hf w hg

/-- What DECODE does (rules R180 to R192). -/
theorem execDecode_change {g : Tag} {s t : State} (h : execDecode g s = .next t) :
    ∃ u st v, Change s u ∧ t = u.withResponse st v := by
  simp only [execDecode, respondOk_eq, fail_eq] at h
  split at h
  · cases h; exact ⟨_, _, _, .same, rfl⟩
  rename_i hc
  cases h
  refine ⟨_, _, _, ?_, rfl⟩
  cases g.protocol? with
  | none => exact .noFrame .pass hc (by decide) (by decide) (by decide)
  | some p =>
    simp only [State.decodeAs, extract]
    split
    · exact .repeatFrame hc
    · rcases extractFrom_cases s.cfg p [] s.pulses (Nat.zero_le _) with ⟨h1, h2, h3⟩ | ⟨h1, -⟩
      · simp only [h1, if_true]; exact .dataFrame p _ hc h2 h3
      · have : ∀ d ∈ [DStat.errNoMatch, .errEmpty, .errTimeout, .errFull], d ≠ .none ∧ d ≠ .data ∧ d ≠ .repeatCode := by
          decide
        obtain ⟨n1, n2, n3⟩ := this _ h1
        simp only [n2, if_false]; exact .noFrame _ hc n1 n2 n3

/-- Everything a command that answers a next state can do. -/
theorem exec_change {i : Instr} {s t : State} (h : exec i s = .next t) : ∃ u st v, Change s u ∧ t = u.withResponse st v := by
  cases i with
  | nop => cases h; exact ⟨_, _, _, .same, rfl⟩
  | capStart => cases h; exact ⟨_, _, _, .began, rfl⟩
  | capPush l d => exact execCapPush_change h
  | capStop =>
    simp only [exec, execCapStop, respondOk_eq, fail_eq] at h
    split at h
    · cases h; exact ⟨_, _, _, .same, rfl⟩
    · rename_i hc; cases h; exact ⟨_, _, _, .stopped (not_not.mp hc), rfl⟩
  | classify =>
    simp only [exec, execClassify, respondOk_eq, fail_eq] at h
    split at h
    · cases h; exact ⟨_, _, _, .same, rfl⟩
    · rename_i hc; cases h; exact ⟨_, _, _, .classified hc, rfl⟩
  | decode g => exact execDecode_change h
  | fbClear => cases h; exact ⟨_, _, _, .cleared, rfl⟩
  | fbPush b =>
    simp only [exec, execFbPush, respondOk_eq, fail_eq] at h
    split at h
    · cases h; exact ⟨_, _, _, .same, rfl⟩
    · rename_i hf; cases h; exact ⟨_, _, _, .bit b hf, rfl⟩
  | encode g =>
    simp only [exec, execEncode, respondOk_eq, fail_eq] at h
    split at h
    · cases h; exact ⟨_, _, _, .noTrain .badTag (by decide), rfl⟩
    · rename_i p _
      split at h
      · cases h; exact ⟨_, _, _, .noTrain .empty (by decide), rfl⟩
      · rename_i hf; cases h; exact ⟨_, _, _, .train p (fun e => hf (congrArg List.length e)), rfl⟩
  | romLookup g b =>
    simp only [exec, execRomLookup, respondOk_eq, fail_eq] at h
    split at h
    · split at h <;> cases h <;> exact ⟨_, _, _, .same, rfl⟩
    · cases h
  | cmp d => cases h; exact ⟨_, _, _, .same, rfl⟩
  | rdReg k =>
    simp only [exec, execRdReg, respondOk_eq, fail_eq] at h
    split at h <;> cases h <;> exact ⟨_, _, _, .same, rfl⟩
  | rdEdur k => obtain ⟨st, v, e⟩ := respondCell_change h; exact ⟨_, st, v, .same, e⟩
  | rdElvl k => obtain ⟨st, v, e⟩ := respondCell_change h; exact ⟨_, st, v, .same, e⟩
  | rdFbit k => obtain ⟨st, v, e⟩ := respondCell_change h; exact ⟨_, st, v, .same, e⟩
  | rdPulse k => obtain ⟨st, v, e⟩ := respondCell_change h; exact ⟨_, st, v, .same, e⟩

/-- Everything a step that answers a next state can do: nothing with no input, RESET, an illegal word, or a command, on the
state with the input taken. -/
theorem step_cases {s t : State} (h : step s = .next t) :
    s.cfg.legal = true ∧
      (t = s ∨ ∃ rest,
        t = State.applyReset { s with inputs := rest } ∨
          ∃ u st v, Change { s with inputs := rest } u ∧ t = u.withResponse st v) := by
  simp only [step] at h
  split at h
  swap
  · cases h
  rename_i legal
  refine ⟨legal, ?_⟩
  cases hi : s.inputs with
  | nil => simp only [runNext, takeInput_nil hi] at h; cases h; exact .inl rfl
  | cons x rest =>
    simp only [runNext, takeInput_cons hi] at h
    refine .inr ⟨rest, ?_⟩
    cases x with
    | reset => cases h; exact .inl rfl
    | command cmd din =>
      rcases runCommand_cases cmd din { s with inputs := rest } with ⟨i, -, e⟩ | ⟨-, e⟩
      · exact .inr (exec_change (e.symm.trans h))
      · have h := e.symm.trans h; cases h; exact .inr ⟨_, _, _, .same, rfl⟩

end Sys2Proof.Machine
end

