-- ==== Sys2Proof/Laws/PerInstr.lean ====
section
/-! SUPPORT. Family MatchMask: the word an instruction encodes to agrees with its row's match under its row's mask (rule R108). -/

namespace Sys2Proof.Laws.MatchMask

/-- The row's `(match, mask)` of spec/opcode_table.json. -/
def row : Instr → Word × Word
  | .nop => (0x00000000, 0xFFFFFFFF)
  | .capStart => (0x10000000, 0xFFFFFFFF)
  | .capPush _ _ => (0x20000000, 0xFCFFFFFF)
  | .capStop => (0x30000000, 0xFFFFFFFF)
  | .classify => (0x40000000, 0xFFFFFFFF)
  | .decode _ => (0x50000000, 0xF3FFFFFF)
  | .fbClear => (0x60000000, 0xFFFFFFFF)
  | .fbPush _ => (0x70000000, 0xFF7FFFFF)
  | .encode _ => (0x80000000, 0xF3FFFFFF)
  | .romLookup _ _ => (0x90000000, 0xF37FFFFF)
  | .cmp _ => (0xA0000000, 0xFFFFFFFF)
  | .rdReg _ => (0xB0000000, 0xFFFF0000)
  | .rdEdur _ => (0xB0100000, 0xFFFF0000)
  | .rdElvl _ => (0xB0200000, 0xFFFF0000)
  | .rdFbit _ => (0xB0300000, 0xFFFF0000)
  | .rdPulse _ => (0xB0400000, 0xFFFF0000)

/-- The encoded word agrees with the row. -/
def Statement (i : Instr) : Prop := encodeCmd i &&& (row i).2 = (row i).1

/-- The mask of the read family keeps the fields above `IDX` and clears `IDX`. -/
theorem readMask (sel : BitVec 3) (idx : Index) :
    packFields 0xB 0 0 0 sel 0 idx &&& 0xFFFF0000 = packFields 0xB 0 0 0 sel 0 0 := by
  have e : (0xFFFF0000 : Word) = BitVec.allOnes 16 ++ (0 : BitVec 16) := by decide
  rw [e]
  exact (BitVec.and_append (x₁ := (0xB ++ (0 : BitVec 2) ++ (0 : BitVec 2) ++ (0 : BitVec 1) ++ sel ++ (0 : BitVec 4) : BitVec 16))
    (x₂ := BitVec.allOnes 16) (y₁ := idx) (y₂ := 0)).trans (by rw [BitVec.and_allOnes]; exact congrArg _ BitVec.and_zero)

theorem nop : Statement .nop := by unfold Statement; decide
theorem capStart : Statement .capStart := by unfold Statement; decide
theorem capPush (lvl : Level) (din : Word) : Statement (.capPush lvl din) := by
  cases lvl
  · exact (by decide : packFields 0x2 0 (levelCode .low) 0 0 0 0 &&& 0xFCFFFFFF = 0x20000000)
  · exact (by decide : packFields 0x2 0 (levelCode .high) 0 0 0 0 &&& 0xFCFFFFFF = 0x20000000)
  · exact (by decide : packFields 0x2 0 (levelCode .timeout) 0 0 0 0 &&& 0xFCFFFFFF = 0x20000000)
theorem capStop : Statement .capStop := by unfold Statement; decide
theorem classify : Statement .classify := by unfold Statement; decide
theorem decode (tag : Tag) : Statement (.decode tag) := by unfold Statement; cases tag <;> decide
theorem fbClear : Statement .fbClear := by unfold Statement; decide
theorem fbPush (bit : Bool) : Statement (.fbPush bit) := by unfold Statement; cases bit <;> decide
theorem encode (tag : Tag) : Statement (.encode tag) := by unfold Statement; cases tag <;> decide
theorem romLookup (tag : Tag) (bit : Bool) : Statement (.romLookup tag bit) := by
  unfold Statement; cases tag <;> cases bit <;> decide
theorem cmp (din : Word) : Statement (.cmp din) := 
  (by decide : packFields 0xA 0 0 0 0 0 0 &&& 0xFFFFFFFF = 0xA0000000)
theorem rdReg (idx : Index) : Statement (.rdReg idx) :=
  (readMask 0 idx).trans (by decide : packFields 0xB 0 0 0 0 0 0 = 0xB0000000)
theorem rdEdur (idx : Index) : Statement (.rdEdur idx) :=
  (readMask 1 idx).trans (by decide : packFields 0xB 0 0 0 1 0 0 = 0xB0100000)
theorem rdElvl (idx : Index) : Statement (.rdElvl idx) :=
  (readMask 2 idx).trans (by decide : packFields 0xB 0 0 0 2 0 0 = 0xB0200000)
theorem rdFbit (idx : Index) : Statement (.rdFbit idx) :=
  (readMask 3 idx).trans (by decide : packFields 0xB 0 0 0 3 0 0 = 0xB0300000)
theorem rdPulse (idx : Index) : Statement (.rdPulse idx) :=
  (readMask 4 idx).trans (by decide : packFields 0xB 0 0 0 4 0 0 = 0xB0400000)

end Sys2Proof.Laws.MatchMask
end

