-- ==== Sys2Proof/Laws/Registers.lean ====
section
/-! SUPPORT. The register layouts as numbers (rules R52 to R55), and what a register read can answer (rules R51, R56). -/

namespace Sys2Proof.Machine

theorem segReg_eq (s : State) :
    s.segReg = BitVec.ofNat 32 ((segStateCode s.segState).toNat + 16 * (capResultCode s.capResult).toNat) := by
  unfold State.segReg
  cases s.segState <;> cases s.capResult <;> decide

theorem clsReg_eq (s : State) :
    s.clsReg = BitVec.ofNat 32 ((tagCode s.ctag).toNat + 4 * s.crep.toNat + 8 * s.cvalid.toNat) := by
  unfold State.clsReg
  cases s.ctag <;> cases s.crep <;> cases s.cvalid <;> decide

theorem decReg_eq (s : State) :
    s.decReg = BitVec.ofNat 32
      ((dstatCode s.dstat).toNat + 16 * (tagCode s.ftag).toNat + 64 * (fkindCode s.fkind).toNat) := by
  unfold State.decReg
  cases s.dstat <;> cases s.ftag <;> cases s.fkind <;> decide

theorem encReg_eq (s : State) : s.encReg = BitVec.ofNat 32 (estatCode s.estat).toNat := by
  unfold State.encReg
  cases s.estat <;> decide

/-- The SEG value at the start of a capture (rule R124). -/
@[simp] theorem segReg_beginCapture (s : State) : s.beginCapture.segReg = 0x00000001 := by
  simp only [segReg_eq, beginCapture_segState, beginCapture_capResult]; decide

/-- The DEC value is the one of its three fields alone (rule R54). -/
theorem decReg_commitFrame (s : State) (d : DStat) (tag : Tag) (kind : FKind) (bits : List Bool) :
    (s.commitFrame d tag kind bits).decReg =
      BitVec.ofNat 32 ((dstatCode d).toNat + 16 * (tagCode tag).toNat + 64 * (fkindCode kind).toNat) := by
  simp only [decReg_eq, commitFrame_dstat, commitFrame_ftag, commitFrame_fkind]

/-- An address is unmapped exactly above 0x0012 (rule R51). -/
theorem readReg_eq_unmapped (s : State) (a : Index) : readReg s a = .unmapped ↔ 0x12 < a.toNat := by
  unfold readReg
  split <;> simp_all
  · split <;> simp
  · omega

/-- `100 × TOL` is shown exactly when it is an integer that a register holds (rule R56). -/
theorem tolPercent_eq_some (r : Rom) (h : r.tolDen ≠ 0) (v : Word) :
    r.tolPercent = some v ↔ 100 * r.tolNum = v.toNat * r.tolDen := by
  unfold Rom.tolPercent
  have pos : 0 < r.tolDen := Nat.pos_of_ne_zero h
  constructor
  · intro e
    split at e
    · rename_i c
      cases e
      rw [BitVec.toNat_ofNat, Nat.mod_eq_of_lt c.2]
      exact (Nat.div_mul_cancel (Nat.dvd_of_mod_eq_zero c.1)).symm
    · cases e
  · intro e
    have q : 100 * r.tolNum / r.tolDen = v.toNat := by rw [e, Nat.mul_div_cancel _ pos]
    rw [if_pos ⟨by rw [e, Nat.mul_mod_left], by rw [q]; exact v.isLt⟩, q, BitVec.ofNat_toNat, BitVec.setWidth_eq]

end Sys2Proof.Machine
end

