-- ==== Sys2Proof/Tests/Slice0.lean ====
section
/-! SUPPORT. Small tests, each about one step: expected values are those of the spec's rules and of spec/95_test_vectors.md, whose
vector names stand in the comments. After them a witness for the hypotheses of every obligation that has any. -/

namespace Sys2Proof.Tests

open Sys2Proof Sys2Proof.Machine

/-! ### Small states -/

/-- The state after a command that answers a next state. -/
def after (i : Instr) (s : State) : Option State :=
  match exec i s with
  | .next t => some t
  | _ => none

/-- The state after a step that answers a next state. -/
def afterStep (s : State) : Option State :=
  match step s with
  | .next t => some t
  | _ => none

/-- The response to a command, its status code first. -/
def answer (i : Instr) (s : State) : Option (Nat × Word) :=
  (after i s).bind fun t => t.response.map fun r => ((statusCode r.rstat).toNat, r.rdata)

/-- The response to a raw command word. -/
def wordAnswer (s : State) (cmd din : Word) : Option (Nat × Word) :=
  (afterStep (s.offerInput (.command cmd din))).bind fun t => t.response.map fun r => ((statusCode r.rstat).toNat, r.rdata)

/-- The refusal a command ends in, if it does. -/
def refusal (i : Instr) (s : State) : Option Refusal :=
  match exec i s with
  | .refused r => some r
  | _ => none

/-- Durations as entries with alternating levels, HIGH first (rule R106). -/
def alternating : Bool → List Duration → List Edge
  | _, [] => []
  | high, d :: ds => { dur := d, lvl := if high then .high else .low } :: alternating (!high) ds

/-- A capture that is over: entry 0 of 9000 µs and then the given pulses. -/
def captured (pulses : List Edge) : State :=
  { State.reset with segState := .done, capResult := .short, ebuf := { dur := 9000, lvl := .low } :: pulses }

/-- A capture that is over, with pulses of alternating levels. -/
def pulses (ds : List Duration) : State := captured (alternating true ds)

/-- A running capture with these entries. -/
def capturing (es : List Edge) : State := { State.reset with segState := .capturing, ebuf := es }

/-- Entry 0 of a capture. -/
def first : Edge := { dur := 9000, lvl := .low }

/-- A mark of 425 µs. -/
def mark425 : Edge := { dur := 425, lvl := .high }

/-- A space of 425 µs. -/
def space425 : Edge := { dur := 425, lvl := .low }

/-- A Frame in FBUF. -/
def framed (bits : List Bool) : State := { State.reset with fbuf := bits, fkind := if bits = [] then .none else .data }

/-- The default instance with another edge buffer depth. -/
def withEbufDepth (n : Nat) (s : State) : State := { s with cfg := { s.cfg with ebufDepth := n } }

/-- The default instance with another frame buffer depth. -/
def withFbufDepth (n : Nat) (s : State) : State := { s with cfg := { s.cfg with fbufDepth := n } }

/-- The default instance with another ROM. -/
def withRom (r : Rom) (s : State) : State := { s with cfg := { s.cfg with rom := r } }

/-- A ROM whose MAX_GAP is 65536 (rule R213, V7). -/
def wideRom : Rom := { Rom.default with maxGap := 65536 }

/-- A ROM whose TOL is 1/3 (rule R56, V8). -/
def thirdRom : Rom := { Rom.default with tolNum := 1, tolDen := 3 }

/-! ### WellFormed: an ill-formed term for each check -/

theorem test_default_is_legal : Config.default.legal = true := by decide
theorem test_durW_13_refused : ({ Config.default with durW := 13 } : Config).durWOk = false := by decide
theorem test_durW_14_ok : ({ Config.default with durW := 14 } : Config).legal = true := by decide
theorem test_ebufDepth_1_refused : ({ Config.default with ebufDepth := 1 } : Config).ebufDepthOk = false := by decide
theorem test_ebufDepth_65537_refused : ({ Config.default with ebufDepth := 65537 } : Config).ebufDepthOk = false := by decide
theorem test_fbufDepth_0_refused : ({ Config.default with fbufDepth := 0 } : Config).fbufDepthOk = false := by decide
theorem test_fbufDepth_32769_refused : ({ Config.default with fbufDepth := 32769 } : Config).fbufDepthOk = false := by decide
theorem test_depth_ends_ok :
    ({ Config.default with ebufDepth := 2, fbufDepth := 32768 } : Config).legal = true ∧
      ({ Config.default with ebufDepth := 65536, fbufDepth := 1 } : Config).legal = true := by decide
theorem test_tolDen_0_refused : ({ Config.default with rom := { Rom.default with tolDen := 0 } } : Config).tolOk = false := by decide
theorem test_rom_too_wide_refused :
    ({ Config.default with durW := 14, rom := { Rom.default with maxGap := 16384 } } : Config).romFits = false := by decide
theorem test_push_operand_too_wide :
    Instr.wellFormed { Config.default with durW := 14 } (.capPush .low 16384) = false ∧
      Instr.wellFormed { Config.default with durW := 14 } (.capPush .low 16383) = true := by decide
theorem test_cmp_operand_too_wide : Instr.wellFormed { Config.default with durW := 14 } (.cmp 16384) = false := by decide

/-! ### Decode: one word per command, its bits written out from rules R91, R94, R105: OP TAG LVL BIT SEL RSV IDX -/

theorem test_decode_nop : decode 0b0000_00_00_0_000_0000_0000000000000000 0 = .ok .nop := by decide
theorem test_decode_cap_start : decode 0b0001_00_00_0_000_0000_0000000000000000 0 = .ok .capStart := by decide
theorem test_decode_cap_push : decode 0b0010_00_10_0_000_0000_0000000000000000 5000 = .ok (.capPush .timeout 5000) := by decide
theorem test_decode_cap_push_high : decode 0b0010_00_01_0_000_0000_0000000000000000 0 = .ok (.capPush .high 0) := by decide
theorem test_decode_cap_stop : decode 0b0011_00_00_0_000_0000_0000000000000000 0 = .ok .capStop := by decide
theorem test_decode_classify : decode 0b0100_00_00_0_000_0000_0000000000000000 0 = .ok .classify := by decide
theorem test_decode_decode : decode 0b0101_10_00_0_000_0000_0000000000000000 0 = .ok (.decode .nec) := by decide
theorem test_decode_fb_clear : decode 0b0110_00_00_0_000_0000_0000000000000000 0 = .ok .fbClear := by decide
theorem test_decode_fb_push : decode 0b0111_00_00_1_000_0000_0000000000000000 0 = .ok (.fbPush true) := by decide
theorem test_decode_encode : decode 0b1000_11_00_0_000_0000_0000000000000000 0 = .ok (.encode .sony) := by decide
theorem test_decode_rom_lookup : decode 0b1001_01_00_1_000_0000_0000000000000000 0 = .ok (.romLookup .aeha true) := by decide
theorem test_decode_cmp : decode 0b1010_00_00_0_000_0000_0000000000000000 390 = .ok (.cmp 390) := by decide
theorem test_decode_rd_reg : decode 0b1011_00_00_0_000_0000_0000000000010010 0 = .ok (.rdReg 0x12) := by decide
theorem test_decode_rd_edur : decode 0b1011_00_00_0_001_0000_1111111111111111 0 = .ok (.rdEdur 0xFFFF) := by decide
theorem test_decode_rd_elvl : decode 0b1011_00_00_0_010_0000_0000000000000011 0 = .ok (.rdElvl 3) := by decide
theorem test_decode_rd_fbit : decode 0b1011_00_00_0_011_0000_0000000000000111 0 = .ok (.rdFbit 7) := by decide
theorem test_decode_rd_pulse : decode 0b1011_00_00_0_100_0000_1000000000000000 0 = .ok (.rdPulse 0x8000) := by decide

/-- Words rejected by name (rule R101; vectors AC-2). -/
theorem test_decode_rejects_by_name :
    decode 0xC0000000 0 = .error .reservedOpcode ∧ decode 0xF0000000 0 = .error .reservedOpcode ∧
    decode 0x00010000 0 = .error .reservedBits ∧ decode 0x01000000 0 = .error .unusedField ∧
    decode 0x10000001 0 = .error .unusedField ∧ decode 0x23000000 0 = .error .reservedLevel ∧
    decode 0x24000000 0 = .error .unusedField ∧ decode 0x54000001 0 = .error .unusedField ∧
    decode 0x84800000 0 = .error .unusedField ∧ decode 0xB0500000 0 = .error .reservedSelector ∧
    decode 0xB0700000 0 = .error .reservedSelector ∧ decode 0xB0800000 0 = .error .unusedField := by decide

/-- The same in a numbering of table bits: a duration word stands above the command word. -/
theorem test_decodeTableWord :
    decodeTableWord 32 0x54000000 = some (.decode .aeha) ∧ decodeTableWord 64 0x00000186_A0000000 = some (.cmp 390) ∧
      decodeTableWord 32 0x23000000 = none := by decide

/-- The written form of rule R105. -/
theorem test_asm_text : asmText (.capPush .timeout 5000) = "CAP_PUSH TIMEOUT, 5000" ∧ asmText (.romLookup .sony true) = "ROM_LOOKUP SONY, 1" := by
  decide

/-- PUSH_PULSES alternates levels, starting with HIGH (rule R106). -/
theorem test_push_pulses : pushPulses [1, 2, 3] = [.capPush .high 1, .capPush .low 2, .capPush .high 3] := by decide

/-! ### The port -/

/-- The first command after reset runs (vector AC-4: NOP with DIN all ones responds OK). -/
theorem test_first_command : wordAnswer State.reset 0x00000000 0xFFFFFFFF = some (0, 0) := by decide
/-- A table word placed after reset runs at the very next step. -/
theorem test_withFetchWord : (afterStep (State.reset.withFetchWord 32 0x10000000)).map (fun t => t.segState) = some .capturing := by decide
/-- AC-3: ILLEGAL comes before BUSY. -/
theorem test_illegal_before_busy : wordAnswer (capturing [first]) 0x40000001 0 = some (1, 0) := by decide
/-- RESET abandons a capture without a result (rule R290). -/
theorem test_reset_abandons_capture :
    (afterStep ((capturing [first, mark425]).offerInput .reset)).map (fun t => (t.segState, t.capResult, t.ebuf)) =
      some (.idle, .none, []) := by decide

/-! ### Segmentor -/

/-- SG-8: CAP_START restarts a capture and discards its entries. -/
theorem test_cap_start : (after .capStart (capturing [first, mark425])).map (fun t => (t.segReg, t.ebuf)) = some (1, []) := by decide
/-- SG-1: 10000 does not end the capture and 10001 does, with SUCCESS. -/
theorem test_cap_push_threshold :
    answer (.capPush .high 10000) (capturing [first]) = some (0, 0x01) ∧
      answer (.capPush .low 10001) (capturing [first]) = some (0, 0x12) := by decide
/-- SG-3, SG-12: a TIMEOUT gap ends with SHORT; a full buffer overflows. -/
theorem test_cap_push_timeout_and_overflow :
    answer (.capPush .timeout 20000) (capturing [first, mark425]) = some (0, 0x32) ∧
      (after (.capPush .low 425) (withEbufDepth 2 (capturing [first, mark425]))).map (fun t => (t.segReg, t.ecount)) =
        some (0x52, 2) := by decide
/-- SG-2, SG-9, SG-7: CAP_STOP gives SHORT, NO_DATA for one TIMEOUT entry, and NOT_CAPTURING outside a capture. -/
theorem test_cap_stop :
    answer .capStop (capturing [first, mark425]) = some (0, 0x32) ∧
      answer .capStop (capturing [{ dur := 20000, lvl := .timeout }]) = some (0, 0x22) ∧
      answer .capStop State.reset = some (2, 0) := by decide

/-! ### Comparators and classifier -/

/-- Rule R153's example and CM-16, CM-17. -/
theorem test_cmp : answer (.cmp 390) State.reset = some (0, 0x65) ∧ answer (.cmp 379) State.reset = some (0, 0x4D) ∧
    answer (.cmp 380) State.reset = some (0, 0x45) := by decide
/-- CM-41, CM-42, CM-40: the gap comparator. -/
theorem test_cmp_gap : answer (.cmp 10001) State.reset = some (0, 0x80) ∧ answer (.cmp 4294967295) State.reset = some (0, 0x80) ∧
    answer (.cmp 10000) State.reset = some (0, 0) := by decide
/-- CL-15, CL-16, CL-12: the place of the repeat test in the priority order. -/
theorem test_classify_priority : answer .classify (pulses [2250, 425, 20000]) = some (0, 0x9) ∧
    answer .classify (pulses [2250, 700, 20000]) = some (0, 0xE) ∧ answer .classify (pulses [2250, 20000]) = some (0, 0xE) := by decide
/-- CL-6, CL-9, CL-17: NEC for a SONY unit, SONY, and a TIMEOUT entry is no sample. -/
theorem test_classify_units : answer .classify (pulses [600, 600, 300, 20000]) = some (0, 0xA) ∧
    answer .classify (pulses [759, 759, 20000]) = some (0, 0xB) ∧
    answer .classify (captured [mark425, { dur := 425, lvl := .timeout }, mark425]) = some (0, 0x8) := by decide

/-! ### Decoder -/

/-- DE-3, DE-14, DE-34: the bits in order, the long window first, an unpaired last mark. -/
theorem test_decode_bits :
    (after (.decode .sony) (pulses [600, 600, 300, 600, 300, 20000])).map (fun t => (t.decReg, t.fbuf)) =
        some (0x71, [true, false, false]) ∧
      (after (.decode .nec) (pulses [379, 562, 20000])).map (fun t => (t.decReg, t.fbuf)) = some (0x61, [true]) ∧
      (after (.decode .aeha) (pulses [425, 425, 141])).map (fun t => (t.decReg, t.fbuf)) = some (0x51, [true, false]) := by decide
/-- DE-6, DE-9, DE-11, DE-32, DE-36: the other outcomes. -/
theorem test_decode_outcomes :
    answer (.decode .nec) (pulses [2250, 562, 999, 20000]) = some (0, 0xA2) ∧
      answer (.decode .aeha) (pulses [425, 425, 200, 425, 425, 20000]) = some (0, 0x04) ∧
      answer (.decode .aeha) (pulses [20000]) = some (0, 0x05) ∧
      answer (.decode .aeha) (captured [mark425, { dur := 425, lvl := .timeout }]) = some (0, 0x06) ∧
      answer (.decode .aeha) (withFbufDepth 2 (pulses [425, 425, 425, 425, 141, 20000])) = some (0, 0x07) := by decide

/-! ### Encoder and frame buffer -/

/-- EN-1.2, EN-1.7. -/
theorem test_rom_lookup : answer (.romLookup .aeha false) State.reset = some (0, 0x01A9008D) ∧
    answer (.romLookup .unknown true) State.reset = some (5, 0) := by decide
/-- A ROM with a value of 65536 refuses ROM_LOOKUP (rule R213, V7). -/
theorem test_rom_lookup_refused : refusal (.romLookup .aeha true) (withRom wideRom State.reset) = some .romNotPackable := by decide
/-- EN-6: FB_CLEAR clears DSTAT, FTAG and FKIND. -/
theorem test_fb_clear :
    (after .fbClear { framed [true] with dstat := .data, ftag := .aeha }).map (fun t => (t.decReg, t.fbuf)) = some (0, []) := by decide
/-- EN-6, EN-4: FB_PUSH appends to a decoded Frame and leaves DSTAT; a full buffer fails. -/
theorem test_fb_push :
    (after (.fbPush false) { framed [true, false] with dstat := .data, ftag := .aeha }).map (fun t => (t.decReg, t.fbuf)) =
        some (0x51, [true, false, false]) ∧
      answer (.fbPush false) (withFbufDepth 1 (framed [true])) = some (7, 0) := by decide
/-- EN-2. -/
theorem test_encode : (after (.encode .aeha) (framed [true, false])).map (fun t => (t.pbuf, t.encReg)) = some ([425, 425, 141, 425], 1) := by
  decide
/-- EN-3: BAD_TAG comes before EMPTY. -/
theorem test_encode_fails : answer (.encode .unknown) State.reset = some (5, 0) ∧ answer (.encode .sony) State.reset = some (6, 0) := by
  decide

/-! ### Access -/

/-- AC-1, and P6's DEC register. -/
theorem test_rd_reg : answer (.rdReg 0x0A) State.reset = some (0, 10000) ∧ answer (.rdReg 0x13) State.reset = some (8, 0) ∧
    answer (.rdReg 0x03) { framed [true] with dstat := .errNoMatch } = some (0, 0x44) := by decide
/-- A TOL of 1/3 refuses RD_REG 0x0012 (rule R56, V8). -/
theorem test_rd_reg_refused : refusal (.rdReg 0x12) (withRom thirdRom State.reset) = some .tolNotReadable := by decide
/-- AC-5. -/
theorem test_rd_edur : answer (.rdEdur 4) (pulses [425, 425, 141, 20000]) = some (0, 20000) ∧
    answer (.rdEdur 5) (pulses [425, 425, 141, 20000]) = some (8, 0) := by decide
/-- AC-5. -/
theorem test_rd_elvl : answer (.rdElvl 4) (pulses [425, 425, 141, 20000]) = some (0, 0) ∧
    answer (.rdElvl 3) (pulses [425, 425, 141, 20000]) = some (0, 1) := by decide
/-- AC-5. -/
theorem test_rd_fbit : answer (.rdFbit 1) (framed [true, false]) = some (0, 0) ∧ answer (.rdFbit 2) (framed [true, false]) = some (8, 0) := by
  decide
/-- P2. -/
theorem test_rd_pulse : answer (.rdPulse 2) { State.reset with pbuf := [425, 425, 141, 425] } = some (0, 141) ∧
    answer (.rdPulse 4) { State.reset with pbuf := [425, 425, 141, 425] } = some (8, 0) := by decide
theorem test_nop : answer .nop (pulses [425]) = some (0, 0) := by decide

/-! ### Witnesses: states and operands that meet the hypotheses of each obligation -/

/-- `s` with one command as the host's next input. -/
def offered (cmd din : Word) (s : State) : State := s.offerInput (.command cmd din)

/-- A state every invariant holds in: a capture that ended with SUCCESS, classified and decoded, and a train. -/
def busyState : State :=
  { State.reset with
    segState := .done, capResult := .success, ebuf := [first, mark425, space425, { dur := 141, lvl := .high }, { dur := 20000, lvl := .low }],
    ctag := .aeha, crep := false, cvalid := true, dstat := .data, ftag := .aeha, fkind := .data, fbuf := [true, false],
    estat := .ok, pbuf := [425, 425, 141, 425] }

/-- LegalWordIsItsOwnEncoding -/
theorem witness_legal_word : decode 0x21000000 9000 = .ok (.capPush .high 9000) ∧ decode 0xA0000000 390 = .ok (.cmp 390) ∧
    decode 0xB040FFFF 7 = .ok (.rdPulse 0xFFFF) := by decide

/-- IllegalWordsChangeNothing, and the illegal words of StepRunsDecodedCommand -/
theorem witness_illegal_word :
    (∀ cmd : Word, (offered cmd 5 busyState).cfg.legal = true ∧ (offered cmd 5 busyState).inputs = [.command cmd 5]) ∧
    illegalWord 0xC0000000 = true ∧ illegalWord 0xFFFFFFFF = true ∧ illegalWord 0x00010000 = true ∧ illegalWord 0x000F0000 = true ∧
    illegalWord 0x00000001 = true ∧ illegalWord 0x23000000 = true ∧ illegalWord 0xB0500000 = true ∧ illegalWord 0xB0700000 = true :=
  ⟨fun _ => ⟨rfl, rfl⟩, by decide⟩

/-- StepRunsDecodedCommand -/
theorem witness_step_runs : (offered 0x54000000 0 busyState).cfg.legal = true ∧
    (offered 0x54000000 0 busyState).inputs = [.command 0x54000000 0] ∧ decode 0x54000000 0 = .ok (.decode .aeha) := by decide

/-- ResetInputRestoresResetValues -/
theorem witness_reset_input : (busyState.offerInput .reset).cfg.legal = true ∧ (busyState.offerInput .reset).inputs = [.reset] := by decide

/-- NoInputChangesNothing -/
theorem witness_no_input : busyState.cfg.legal = true ∧ busyState.inputs = [] := by decide

/-- OnlyLegalInstancesStep -/
theorem witness_illegal_config : (withEbufDepth 1 State.reset).cfg.legal = false ∧ (withFbufDepth 32769 State.reset).cfg.legal = false := by
  decide

/-- EveryCommandCompletes -/
theorem witness_completes : busyState.cfg.legal = true ∧ busyState.cfg.readable = true := by decide

/-- OneResponsePerCommand -/
theorem witness_one_response : (offered 0x40000000 0 busyState).inputs = [.command 0x40000000 0] ∧
    ∃ t, step (offered 0x40000000 0 busyState) = .next t := ⟨rfl, _, rfl⟩

/-- EveryCommandsFrame, EdgeBufferOnlyAppends -/
theorem witness_exec_next : (∃ t, exec (.capPush .high 425) (capturing [first]) = .next t) ∧ (∃ t, exec .capStart busyState = .next t) ∧
    ∃ t, exec (.encode .nec) busyState = .next t := ⟨⟨_, rfl⟩, ⟨_, rfl⟩, ⟨_, rfl⟩⟩

/-- A check of every member, by evaluation. -/
theorem each {ds : List Duration} {n : Nat} (h : ds.all (fun d => decide (d.toNat < n)) = true) : ∀ d ∈ ds, d.toNat < n :=
  fun d hd => of_decide_eq_true (List.all_eq_true.mp h d hd)

/-- The four invariants hold in a state that is not the reset state. -/
theorem busyState_invariants : StateInv busyState ∧ CaptureShape busyState ∧ ClassFresh busyState ∧ FrameConsistent busyState := by
  refine ⟨⟨rfl, rfl, by decide, each (by decide), rfl, by decide, by decide, by decide, by decide, by decide⟩,
    ⟨fun h => (by cases h), fun h => (by cases h), fun _ => ?_⟩, fun _ => ⟨by decide, by decide⟩,
    ⟨by decide, by decide, by decide, by decide, by decide⟩⟩
  exact ⟨first, [mark425, space425, { dur := 141, lvl := .high }], { dur := 20000, lvl := .low }, rfl, rfl, by decide⟩

/-- StepKeepsStateInvariant, StepKeepsCaptureShape, StepKeepsClassificationFresh, StepKeepsFrameConsistent -/
theorem witness_step_keeps : (StateInv busyState ∧ CaptureShape busyState ∧ ClassFresh busyState ∧ FrameConsistent busyState) ∧
    ∃ t, step busyState = .next t := ⟨busyState_invariants, _, rfl⟩

/-- CapPushStoresEntry: a state for each branch, at the ends of the ranges. -/
theorem witness_cap_push :
    State.reset.segState ≠ .capturing ∧
    (withEbufDepth 2 (capturing [first, mark425])).ebuf.length = (withEbufDepth 2 (capturing [first, mark425])).cfg.ebufDepth ∧
    (1 ≤ (capturing [first]).ebuf.length ∧ (capturing [first]).cfg.rom.maxGap.toNat < (durationOf Config.default 10001).toNat) ∧
    ¬ (1 ≤ (capturing []).ebuf.length) ∧ ¬ (Config.default.rom.maxGap.toNat < (durationOf Config.default 10000).toNat) := by decide

/-- GapThresholdIsStrict, with both sides of the threshold. -/
theorem witness_gap : (capturing [first]).cfg.rom = Rom.default ∧ (capturing [first]).segState = .capturing ∧
    1 ≤ (capturing [first]).ebuf.length ∧ (capturing [first]).ebuf.length ≠ (capturing [first]).cfg.ebufDepth ∧
    (10000 : Word).toNat < 2 ^ (capturing [first]).cfg.durW ∧ (10001 : Word).toNat < 2 ^ (capturing [first]).cfg.durW := by decide

/-- CapStopFinalizes: a state for each clause. -/
theorem witness_cap_stop :
    State.reset.segState ≠ .capturing ∧ (capturing [first]).segState = .capturing ∧ (capturing [first]).ebuf.length < 2 ∧
    (capturing [first, { dur := 10000, lvl := .low }]).ebuf = [first] ++ [{ dur := 10000, lvl := .low }] ∧
    (10000 : Duration).toNat ≤ Rom.default.maxGap.toNat ∧
    (capturing [first, { dur := 10001, lvl := .low }]).ebuf = [first] ++ [{ dur := 10001, lvl := .low }] ∧
    Rom.default.maxGap.toNat < (10001 : Duration).toNat ∧
    (capturing [first, { dur := 10001, lvl := .timeout }]).ebuf = [first] ++ [{ dur := 10001, lvl := .timeout }] := by decide

/-- CapStopNeverSucceeds -/
theorem witness_cap_stop_never : CaptureShape (capturing [first, mark425, space425]) ∧
    (capturing [first, mark425, space425]).segState = .capturing :=
  ⟨⟨fun _ => (by decide), fun h => (by cases h), fun h => (by cases h)⟩, rfl⟩

/-- WindowIsExact, PrecomputedBoundsAgree: TOL 35/100, and a TOL above 1. -/
theorem witness_tolerance : Rom.default.tolDen ≠ 0 ∧ Rom.default.tolNum = 35 ∧ Rom.default.tolDen = 100 ∧
    ({ Rom.default with tolNum := 5, tolDen := 3 } : Rom).tolDen ≠ 0 := by decide

/-- CmpShowsEveryWindow -/
theorem witness_cmp : busyState.cfg.rom = Rom.default := by decide

/-- ClassifyByPriority: a sample for each clause, and none for the last. -/
theorem witness_classify :
    (capturing [first]).segState = .capturing ∧ busyState.segState ≠ .capturing ∧
    sampleInWindow Rom.default 425 (unitSample (pulses [277, 277]).pulses) = true ∧
    (sampleInWindow Rom.default 425 (unitSample (pulses [1463, 574]).pulses) = false ∧
      sampleInWindow Rom.default 2250 (repeatSample (pulses [1463, 574]).pulses) = true) ∧
    (sampleInWindow Rom.default 2250 (repeatSample (pulses [1462, 574]).pulses) = false ∧
      sampleInWindow Rom.default 562 (unitSample (pulses [1462, 574]).pulses) = true) ∧
    (sampleInWindow Rom.default 562 (unitSample (pulses [759, 759]).pulses) = false ∧
      sampleInWindow Rom.default 600 (unitSample (pulses [759, 759]).pulses) = true) ∧
    sampleInWindow Rom.default 600 (unitSample (pulses [811, 811]).pulses) = false := by decide

/-- EffectiveUnitRanges, for every first space, so at every end of the ranges. -/
theorem witness_unit_ranges : ∀ d : Duration,
    (pulses [1462, d]).cfg.rom = Rom.default ∧ (pulses [1462, d]).segState ≠ .capturing ∧
    (pulses [1462, d]).ebuf = first :: { dur := 1462, lvl := .high } :: { dur := d, lvl := .low } :: [] ∧
    Level.low ≠ .timeout ∧ ¬ (1463 ≤ (1462 : Duration).toNat ∧ (1462 : Duration).toNat ≤ 3037) :=
  fun _ => ⟨rfl, (fun h => by cases h), rfl, by decide, by decide⟩

/-- RepeatCodeIsNeverData: nothing, a gap and a TIMEOUT entry after the mark, at both ends of the window. -/
theorem witness_repeat :
    (∀ (rest : List Edge) (d : Duration), (captured ({ dur := d, lvl := .high } :: rest)).cfg.rom = Rom.default ∧
      (captured ({ dur := d, lvl := .high } :: rest)).segState ≠ .capturing ∧ Level.high ≠ .timeout ∧
      (captured ({ dur := d, lvl := .high } :: rest)).ebuf = first :: { dur := d, lvl := .high } :: rest) ∧
    (1463 ≤ (1463 : Duration).toNat ∧ (3037 : Duration).toNat ≤ 3037) ∧
    (∀ x ∈ ([] : List Edge).head?, x.lvl = .timeout ∨ 10000 < x.dur.toNat) ∧
    (∀ x ∈ [({ dur := 10001, lvl := .low } : Edge)].head?, x.lvl = .timeout ∨ 10000 < x.dur.toNat) ∧
    ∀ x ∈ [({ dur := 425, lvl := .timeout } : Edge)].head?, x.lvl = .timeout ∨ 10000 < x.dur.toNat :=
  ⟨fun _ _ => ⟨rfl, (fun h => by cases h), by decide, rfl⟩, by decide, by decide, by decide, by decide⟩

/-- BusyWhileCapturing; DecodeUnknownPassesThrough and DecodeOutcomeAndFrame -/
theorem witness_busy : (capturing [first]).segState = .capturing ∧ busyState.segState ≠ .capturing ∧ State.reset.segState ≠ .capturing := by
  decide

/-- DecodeNecRepeat -/
theorem witness_nec_repeat : (pulses [2250, 562, 999]).segState ≠ .capturing ∧
    (pulses [2250, 562, 999]).ebuf = first :: { dur := 2250, lvl := .high } :: [{ dur := 562, lvl := .low }, { dur := 999, lvl := .high }] ∧
    Level.high ≠ .timeout ∧ inWindow Rom.default Rom.default.repeatNec 2250 = true := by decide

/-- The hypotheses of DecodeStopsAtFirstFrameEnd. -/
def StopsHere (s : State) (p : Protocol) (good rest : List Edge) (bits frame : List Bool) (d : DStat) : Prop :=
  s.segState ≠ .capturing ∧ isRepeat s.cfg.rom p s.pulses = false ∧ s.pulses = good ++ rest ∧ GoodPairs s.cfg.rom p bits good ∧
    bits.length ≤ s.cfg.fbufDepth ∧ FrameEnd s.cfg p bits rest d frame

/-- A plain pulse is one by evaluation. -/
theorem plain_mark425 : mark425.plain Rom.default ∧ space425.plain Rom.default := ⟨⟨by decide, by decide⟩, by decide, by decide⟩

theorem witness_exhausted : StopsHere (captured [mark425, space425]) .aeha [mark425, space425] [] [true] [true] .data :=
  ⟨by decide, by decide, rfl, ⟨plain_mark425.1, rfl, plain_mark425.2, trivial⟩, by decide, .exhausted (by decide)⟩

theorem witness_no_pulse : StopsHere (captured []) .sony [] [] [] [] .errEmpty :=
  ⟨by decide, by decide, rfl, trivial, by decide, .noPulse rfl⟩

theorem witness_gap_mark : StopsHere (captured [mark425, space425, { dur := 10001, lvl := .high }]) .aeha [mark425, space425]
    [{ dur := 10001, lvl := .high }] [true] [true] .data :=
  ⟨by decide, by decide, rfl, ⟨plain_mark425.1, rfl, plain_mark425.2, trivial⟩, by decide, .gapMark _ _ (by decide) rfl (by decide)⟩

theorem witness_gap_first : StopsHere (pulses [20000]) .aeha [] [{ dur := 20000, lvl := .high }] [] [] .errEmpty :=
  ⟨by decide, by decide, rfl, trivial, by decide, .gapFirst _ _ (by decide) rfl rfl⟩

theorem witness_timeout_mark : StopsHere (captured [{ dur := 2250, lvl := .timeout }]) .nec [] [{ dur := 2250, lvl := .timeout }] [] []
    .errTimeout :=
  ⟨by decide, by decide, rfl, trivial, by decide, .timeoutMark _ _ rfl⟩

theorem witness_no_match : StopsHere (pulses [191, 425]) .aeha [] [{ dur := 191, lvl := .high }, space425] [] [] .errNoMatch :=
  ⟨by decide, by decide, rfl, trivial, by decide, .noMatch _ _ ⟨by decide, by decide⟩ rfl⟩

theorem witness_full : StopsHere (withFbufDepth 1 (captured [mark425, space425, mark425])) .aeha [mark425, space425] [mark425] [true] []
    .errFull :=
  ⟨by decide, by decide, rfl, ⟨plain_mark425.1, rfl, plain_mark425.2, trivial⟩, by decide, .full _ _ true plain_mark425.1 rfl rfl⟩

theorem witness_last_mark : StopsHere (captured [mark425]) .aeha [] [mark425] [] [true] .data :=
  ⟨by decide, by decide, rfl, trivial, by decide, .lastMark _ true plain_mark425.1 rfl (by decide)⟩

theorem witness_timeout_space : StopsHere (captured [mark425, { dur := 20000, lvl := .timeout }]) .aeha []
    [mark425, { dur := 20000, lvl := .timeout }] [] [] .errTimeout :=
  ⟨by decide, by decide, rfl, trivial, by decide, .timeoutSpace _ _ _ true plain_mark425.1 rfl (by decide) rfl⟩

theorem witness_gap_space : StopsHere (pulses [425, 20000]) .aeha [] [mark425, { dur := 20000, lvl := .low }] [] [true] .data :=
  ⟨by decide, by decide, rfl, trivial, by decide, .gapSpace _ _ _ true plain_mark425.1 rfl (by decide) (by decide) rfl⟩

/-- DecodeCompletesOnEveryStream: an empty stream, one that ends with a bit, and one in the repeat window under another tag. -/
theorem witness_every_stream :
    (State.reset.segState ≠ .capturing ∧ isRepeat Rom.default .nec State.reset.pulses = false) ∧
    ((pulses [425, 20000]).segState ≠ .capturing ∧ isRepeat Rom.default .aeha (pulses [425, 20000]).pulses = false) ∧
    ((pulses [2250]).segState ≠ .capturing ∧ isRepeat Rom.default .sony (pulses [2250]).pulses = false) := by decide

/-- DecodeReadsOnlyEdges: two states that agree on EBUF, FBUF_DEPTH and ROM and differ elsewhere. -/
theorem witness_reads_only_edges :
    let s := { State.reset with ebuf := busyState.ebuf, dstat := .errFull, pbuf := [7] }
    busyState.segState ≠ .capturing ∧ s.segState ≠ .capturing ∧ busyState.ebuf = s.ebuf ∧ busyState.cfg = s.cfg ∧
    (after (.decode .aeha) busyState).isSome = true ∧ (after (.decode .aeha) s).isSome = true ∧ busyState ≠ s := by decide

/-- RoundTripThroughCapture, with the smallest buffers that hold the train. -/
theorem witness_round_trip :
    let s := withEbufDepth 5 (withFbufDepth 2 (framed [true, false]))
    s.cfg.legal = true ∧ s.cfg.rom = Rom.default ∧ 1 ≤ s.fbuf.length ∧ s.fbuf.length ≤ s.cfg.fbufDepth ∧
    2 * s.fbuf.length + 1 ≤ s.cfg.ebufDepth ∧ (after (.encode .nec) s).map (fun t => t.pbuf.length) = some 4 ∧
    Level.timeout ∉ [Level.high, .low, .high, .low] := by decide

/-- RomLookupShowsPair, DefaultRomContents: a value of 65536, and none as large as that. -/
theorem witness_rom_lookup :
    ((withRom wideRom State.reset).cfg.rom.maxGap ∈ wideRom.durations ∧ 65536 ≤ (withRom wideRom State.reset).cfg.rom.maxGap.toNat) ∧
    (∀ d ∈ ({ Rom.default with maxGap := 65535 } : Rom).durations, d.toNat < 65536) ∧ State.reset.cfg.rom = Rom.default :=
  ⟨by decide, each (by decide), rfl⟩

/-- FbPushAppendsBit, LoadFrameLoadsBits: a full buffer, one bit of room, and a Frame that fills the buffer. -/
theorem witness_frame_buffer :
    (withFbufDepth 1 (framed [true])).fbuf.length = (withFbufDepth 1 (framed [true])).cfg.fbufDepth ∧
    (withFbufDepth 2 (framed [true])).fbuf.length ≠ (withFbufDepth 2 (framed [true])).cfg.fbufDepth ∧
    [true, false].length ≤ (withFbufDepth 2 busyState).cfg.fbufDepth := by decide

/-- EncodeWritesTrain, EncodesA5AsAeha -/
theorem witness_encode : State.reset.fbuf = [] ∧ busyState.fbuf ≠ [] ∧
    (framed [true, false, true, false, false, true, false, true]).cfg.rom = Rom.default ∧
    (framed [true, false, true, false, false, true, false, true]).fbuf = [true, false, true, false, false, true, false, true] := by decide

/-- RegisterMap, DefaultConstantRegisters: the first and the last unmapped address. -/
theorem witness_register_map : 0x12 < (0x13 : Index).toNat ∧ 0x12 < (0xFFFF : Index).toNat ∧ State.reset.cfg = Config.default := by decide

/-- TolerancePercentRegister: 35 percent. -/
theorem witness_tol_percent : Rom.default.tolDen ≠ 0 ∧ 100 * Rom.default.tolNum = 35 * Rom.default.tolDen ∧ 35 < 2 ^ 32 := by decide

/-- TolerancePercentRegister: a third is no whole percentage. -/
theorem witness_tol_third : (withRom thirdRom State.reset).cfg.rom.tolDen ≠ 0 ∧
    ∀ pct : Nat, pct < 2 ^ 32 → 100 * (withRom thirdRom State.reset).cfg.rom.tolNum ≠ pct * (withRom thirdRom State.reset).cfg.rom.tolDen :=
  ⟨by decide, fun pct _ => by show 100 * 1 ≠ pct * 3; omega⟩

/-- EdgeReads, FrameAndPulseReads: the last cell below the count and the first index at it. -/
theorem witness_buffer_reads :
    busyState.ebuf[(4 : Index).toNat]? = some { dur := 20000, lvl := .low } ∧ busyState.ebuf.length ≤ (5 : Index).toNat ∧
    busyState.fbuf[(1 : Index).toNat]? = some false ∧ busyState.fbuf.length ≤ (2 : Index).toNat ∧
    busyState.pbuf[(3 : Index).toNat]? = some 425 ∧ busyState.pbuf.length ≤ (4 : Index).toNat := by decide

/-- ReadsWriteNothing, InsertedReadIsInvisible -/
theorem witness_reads : writesNothing (.rdEdur 4) = true ∧ (after (.rdEdur 4) busyState).isSome = true ∧ busyState.cfg.readable = true := by
  decide

end Sys2Proof.Tests
end

/-! SUPPORT and PROOFS for the statements of 00_scope: the illegal words by their fields, what a step does with the host's next
input, completion on a readable configuration, the response port as write-only, and the comparator bounds. -/

namespace Sys2Proof.Machine

/-! ### Illegal words (rules R91, R101) -/

theorem opField_toNat (w : Word) : (opField w).toNat = w.toNat / 2 ^ 28 % 16 := by
  simp [opField, Nat.shiftRight_eq_div_pow]

theorem tagField_toNat (w : Word) : (tagField w).toNat = w.toNat / 2 ^ 26 % 4 := by
  simp [tagField, Nat.shiftRight_eq_div_pow]

theorem lvlField_toNat (w : Word) : (lvlField w).toNat = w.toNat / 2 ^ 24 % 4 := by
  simp [lvlField, Nat.shiftRight_eq_div_pow]

theorem bitField_toNat (w : Word) : (bitField w).toNat = w.toNat / 2 ^ 23 % 2 := by
  simp [bitField, Nat.shiftRight_eq_div_pow]

theorem selField_toNat (w : Word) : (selField w).toNat = w.toNat / 2 ^ 20 % 8 := by
  simp [selField, Nat.shiftRight_eq_div_pow]

theorem rsvField_toNat (w : Word) : (rsvField w).toNat = w.toNat / 2 ^ 16 % 16 := by
  simp [rsvField, Nat.shiftRight_eq_div_pow]

theorem idxField_toNat (w : Word) : (idxField w).toNat = w.toNat % 2 ^ 16 := by
  simp [idxField]

/-- The conditions of rule R101, negated, on the decoder's own fields. -/
theorem illegalWord_eq_false_iff (w : Word) : illegalWord w = false ↔
    (opField w).toNat < 0xC ∧ rsvField w = 0 ∧
      (tagField w = 0 ∨ (opField w).toNat = 0x5 ∨ (opField w).toNat = 0x8 ∨ (opField w).toNat = 0x9) ∧
      (lvlField w = 0 ∨ (opField w).toNat = 0x2) ∧
      (bitField w = 0 ∨ (opField w).toNat = 0x7 ∨ (opField w).toNat = 0x9) ∧
      (selField w = 0 ∨ (opField w).toNat = 0xB) ∧
      (idxField w = 0 ∨ (opField w).toNat = 0xB) ∧
      ((opField w).toNat = 0x2 → lvlField w ≠ 3) ∧
      ((opField w).toNat = 0xB → (selField w).toNat < 5) := by
  simp only [illegalWord, ← opField_toNat, ← tagField_toNat, ← lvlField_toNat, ← bitField_toNat, ← selField_toNat,
    ← rsvField_toNat, ← idxField_toNat]
  simp [← BitVec.toNat_inj, and_assoc, Decidable.imp_iff_not_or]

theorem whenUnusedZero_isOk (z : Bool) (i : Instr) : (∃ j, whenUnusedZero z i = .ok j) ↔ z = true := by
  simp [whenUnusedZero_eq_ok]

theorem decodePush_isOk (lvl : BitVec 2) (din : Word) : (∃ j, decodePush lvl din = .ok j) ↔ lvl ≠ 3 := by
  rw [Ne, ← levelOf_eq_none, decodePush]
  cases levelOf lvl <;> simp

theorem decodeRead_isOk (sel : BitVec 3) (idx : Index) : (∃ j, decodeRead sel idx = .ok j) ↔ sel.toNat < 5 := by
  unfold decodeRead
  split
  -- the reserved selectors 5 to 7
  case h_6 => simp only [imp_false] at *; simp; omega
  all_goals simp [*]

/-- The unused-field check of the two opcodes that decode further (rules R95, R96, R99). -/
theorem unlessUsed_isOk (c : Prop) [Decidable c] (r : Except Illegal Instr) :
    (∃ j, (if c then r else .error .unusedField) = .ok j) ↔ c ∧ ∃ j, r = .ok j := by
  by_cases h : c <;> simp [h]

/-- The decoder accepts exactly the words that no condition of rule R101 makes illegal, whatever the data word. -/
theorem decode_isOk_iff (cmd din : Word) : (∃ i, decode cmd din = .ok i) ↔ illegalWord cmd = false := by
  rw [illegalWord_eq_false_iff]
  unfold decode
  generalize opField cmd = op, tagField cmd = tag, lvlField cmd = lvl, bitField cmd = bit,
    selField cmd = sel, rsvField cmd = rsv, idxField cmd = idx
  split
  case isTrue hr => simpa using fun _ h => absurd h hr
  case isFalse hr =>
    rw [not_not] at hr
    split
    -- the reserved opcodes 0xC to 0xF
    case h_13 => simp only [imp_false] at *; simp; omega
    all_goals
      rename_i hop
      simp [hop, hr, whenUnusedZero_isOk, decodePush_isOk, decodeRead_isOk, unlessUsed_isOk, and_assoc]

/-! ### The port and the step (rules R9, R90, R101) -/

theorem runCommand_of_ok {cmd din : Word} {i : Instr} (h : decode cmd din = .ok i) (s : State) :
    runCommand cmd din s = exec i s := by
  simp [runCommand, h]

theorem runCommand_of_illegal {cmd : Word} (h : illegalWord cmd = true) (din : Word) (s : State) :
    runCommand cmd din s = .next (s.withResponse .illegal 0) := by
  rcases runCommand_cases cmd din s with ⟨i, hi, -⟩ | ⟨-, e⟩
  · have legal := (decode_isOk_iff cmd din).mp ⟨i, hi⟩
    rw [h] at legal
    cases legal
  · exact e

theorem step_of_no_input {s : State} (legal : s.cfg.legal = true) (hi : s.inputs = []) : step s = .next s := by
  simp [step, legal, runNext, takeInput_nil hi]

theorem step_of_input {s : State} {x : HostInput} {rest : List HostInput} (legal : s.cfg.legal = true)
    (hi : s.inputs = x :: rest) : step s = runInput x { s with inputs := rest } := by
  simp [step, legal, runNext, takeInput_cons hi]

theorem step_of_not_legal {s : State} (h : s.cfg.legal = false) : step s = .refused .illegalInstance := by
  simp [step, h]

theorem configLegal_iff (c : Config) : c.legal = true ↔
    14 ≤ c.durW ∧ (2 ≤ c.ebufDepth ∧ c.ebufDepth ≤ 65536) ∧ (1 ≤ c.fbufDepth ∧ c.fbufDepth ≤ 32768) ∧
      c.rom.tolDen ≠ 0 ∧ ∀ d ∈ c.rom.durations, d.toNat < 2 ^ c.durW := by
  simp only [Config.legal, Config.durWOk, Config.ebufDepthOk, Config.fbufDepthOk, Config.tolOk, Config.romFits,
    Bool.and_eq_true, decide_eq_true_iff, List.all_eq_true, and_assoc]

/-! ### Every command answers, and keeps the parameters and ROM (rules R49, R260, R301) -/

theorem Change.cfg_eq {s u : State} (h : Change s u) : u.cfg = s.cfg := by
  cases h <;> rfl

theorem exec_next_cfg {i : Instr} {s t : State} (h : exec i s = .next t) : t.cfg = s.cfg := by
  obtain ⟨u, st, v, hu, rfl⟩ := exec_change h
  exact hu.cfg_eq

theorem step_next_cfg {s t : State} (h : step s = .next t) : t.cfg = s.cfg := by
  obtain ⟨-, rfl | ⟨rest, rfl | ⟨u, st, v, hu, rfl⟩⟩⟩ := step_cases h
  · rfl
  · rfl
  · exact hu.cfg_eq

theorem exec_next_response {i : Instr} {s t : State} (h : exec i s = .next t) : ∃ r, t.response = some r := by
  obtain ⟨u, st, v, -, rfl⟩ := exec_change h
  exact ⟨_, rfl⟩

theorem respondCell_next (cell : Option Word) (s : State) : ∃ t, respondCell cell s = .next t := by
  rcases respondCell_cases cell s with ⟨v, -, e⟩ | ⟨-, e⟩ <;> exact ⟨_, e⟩

/-- Only ROM_TOL_PCT can be unreadable (rule R56). -/
theorem readReg_ne_unreadable {s : State} (h : s.cfg.rom.tolPercent.isSome = true) (a : Index) :
    readReg s a ≠ .unreadable := by
  obtain ⟨v, hv⟩ := Option.isSome_iff_exists.mp h
  unfold readReg
  split <;> simp [hv]

/-- On a configuration that can show its constants no command is refused. -/
theorem exec_completes {s : State} (h : s.cfg.readable = true) (i : Instr) : ∃ t, exec i s = .next t := by
  obtain ⟨packable, tolShown⟩ := (Bool.and_eq_true _ _).mp h
  cases i with
  | nop => exact ⟨_, rfl⟩
  | capStart => exact ⟨_, rfl⟩
  | capPush l d =>
    simp only [exec, execCapPush]
    split
    · exact ⟨_, rfl⟩
    · split <;> exact ⟨_, rfl⟩
  | capStop => simp only [exec, execCapStop]; split <;> exact ⟨_, rfl⟩
  | classify => simp only [exec, execClassify]; split <;> exact ⟨_, rfl⟩
  | decode g => simp only [exec, execDecode]; split <;> exact ⟨_, rfl⟩
  | fbClear => exact ⟨_, rfl⟩
  | fbPush b => simp only [exec, execFbPush]; split <;> exact ⟨_, rfl⟩
  | encode g =>
    simp only [exec, execEncode]
    split
    · exact ⟨_, rfl⟩
    · split <;> exact ⟨_, rfl⟩
  | romLookup g b => simp only [exec, execRomLookup, packable, if_true]; split <;> exact ⟨_, rfl⟩
  | cmp d => exact ⟨_, rfl⟩
  | rdReg k =>
    have shown := readReg_ne_unreadable tolShown k
    simp only [exec, execRdReg]
    split
    · exact ⟨_, rfl⟩
    · exact ⟨_, rfl⟩
    · contradiction
  | rdEdur k => exact respondCell_next _ s
  | rdElvl k => exact respondCell_next _ s
  | rdFbit k => exact respondCell_next _ s
  | rdPulse k => exact respondCell_next _ s

/-- On a configuration that can show its constants every command gives a response, and the configuration stays so. -/
theorem exec_answers {s : State} (h : s.cfg.readable = true) (i : Instr) :
    ∃ t r, exec i s = .next t ∧ t.response = some r ∧ t.cfg.readable = true := by
  obtain ⟨t, ht⟩ := exec_completes h i
  obtain ⟨r, hr⟩ := exec_next_response ht
  exact ⟨t, r, ht, hr, exec_next_cfg ht ▸ h⟩

theorem runInput_completes {s : State} (h : s.cfg.readable = true) (x : HostInput) : ∃ t, runInput x s = .next t := by
  cases x with
  | reset => exact ⟨_, rfl⟩
  | command cmd din =>
    rcases runCommand_cases cmd din s with ⟨i, -, e⟩ | ⟨-, e⟩
    · obtain ⟨t, ht⟩ := exec_completes h i
      exact ⟨t, e.trans ht⟩
    · exact ⟨_, e⟩

/-! ### No command reads the response port -/

theorem afterPush_withResponse (s : State) (st : Status) (v : Word) :
    (s.withResponse st v).afterPush = s.afterPush.withResponse st v := by
  simp only [State.afterPush, apply_ite (State.withResponse · st v)]
  rfl

theorem decodeAs_withResponse (s : State) (p : Protocol) (st : Status) (v : Word) :
    (s.withResponse st v).decodeAs p = (s.decodeAs p).withResponse st v := by
  simp only [State.decodeAs, apply_ite (State.withResponse · st v)]
  rfl

theorem execCapPush_withResponse (l : Level) (din : Word) (s : State) (st : Status) (v : Word) :
    execCapPush l din (s.withResponse st v) = execCapPush l din s := by
  have pushed (e : Edge) : (s.withResponse st v).pushEdge e = (s.pushEdge e).withResponse st v := rfl
  simp only [execCapPush, pushed, afterPush_withResponse]
  rfl

theorem execDecode_withResponse (g : Tag) (s : State) (st : Status) (v : Word) :
    execDecode g (s.withResponse st v) = execDecode g s := by
  unfold execDecode
  cases g.protocol? with
  | none => rfl
  | some p =>
    simp only [decodeAs_withResponse]
    rfl

/-- A command does the same whatever response stands on the port. Only CAP_PUSH and DECODE choose between whole next states, under a
test that has to be moved past the response. -/
theorem exec_withResponse (i : Instr) (s : State) (st : Status) (v : Word) :
    exec i (s.withResponse st v) = exec i s := by
  cases i with
  | capPush l din => exact execCapPush_withResponse l din s st v
  | decode g => exact execDecode_withResponse g s st v
  | _ => rfl

/-- The commands of rule R246 write nothing but the response. -/
theorem exec_of_writesNothing {i : Instr} {s t : State} (hi : writesNothing i = true) (h : exec i s = .next t) :
    ∃ st v, t = s.withResponse st v := by
  cases i with
  | nop => cases h; exact ⟨_, _, rfl⟩
  | cmp d => cases h; exact ⟨_, _, rfl⟩
  | romLookup g b =>
    simp only [exec, execRomLookup, respondOk_eq, fail_eq] at h
    split at h
    · split at h <;> cases h <;> exact ⟨_, _, rfl⟩
    · cases h
  | rdReg k =>
    simp only [exec, execRdReg, respondOk_eq, fail_eq] at h
    split at h <;> cases h <;> exact ⟨_, _, rfl⟩
  | rdEdur k => exact respondCell_change h
  | rdElvl k => exact respondCell_change h
  | rdFbit k => exact respondCell_change h
  | rdPulse k => exact respondCell_change h
  | _ => cases hi

/-! ### The responses to a list of commands -/

theorem responsesOf_withResponse (is : List Instr) (s : State) (st : Status) (v : Word) :
    responsesOf is (s.withResponse st v) = responsesOf is s := by
  cases is with
  | nil => rfl
  | cons i is => simp only [responsesOf, exec_withResponse]

theorem responsesOf_cons {i : Instr} {s t : State} {r : Response} (h : exec i s = .next t) (hr : t.response = some r)
    (is : List Instr) : responsesOf (i :: is) s = r :: responsesOf is t := by
  simp [responsesOf, h, hr]

theorem responsesOf_length {s : State} (h : s.cfg.readable = true) (is : List Instr) :
    (responsesOf is s).length = is.length := by
  induction is generalizing s with
  | nil => rfl
  | cons i is ih =>
    obtain ⟨t, r, ht, hr, hreadable⟩ := exec_answers h i
    rw [responsesOf_cons ht hr, List.length_cons, ih hreadable, List.length_cons]

/-- Taking the response of an inserted read out leaves the responses of the list without it (rule R246). -/
theorem responsesOf_eraseIdx {i : Instr} {s : State} (hi : writesNothing i = true) (h : s.cfg.readable = true)
    (before after : List Instr) :
    (responsesOf (before ++ i :: after) s).eraseIdx before.length = responsesOf (before ++ after) s := by
  induction before generalizing s with
  | nil =>
    obtain ⟨t, r, ht, hr, -⟩ := exec_answers h i
    obtain ⟨st, v, rfl⟩ := exec_of_writesNothing hi ht
    rw [List.nil_append, responsesOf_cons ht hr, responsesOf_withResponse]
    rfl
  | cons j before ih =>
    obtain ⟨t, r, ht, hr, hreadable⟩ := exec_answers h j
    rw [List.cons_append, List.cons_append, responsesOf_cons ht hr, responsesOf_cons ht hr, List.length_cons,
      List.eraseIdx_cons_succ, ih hreadable]

/-! ### Comparator bounds (rules R17, R151) -/

/-- `n × (1 − TOL) ≤ d` in the rationals, with TOL's denominator multiplied out. -/
theorem lowerBound_iff (n d num den : ℕ) (h : den ≠ 0) :
    (n : ℚ) * (1 - (num : ℚ) / den) ≤ d ↔ n * den ≤ d * den + n * num := by
  have pos : (0 : ℚ) < den := by exact_mod_cast Nat.pos_of_ne_zero h
  have e : (n : ℚ) * (1 - (num : ℚ) / den) = (n * den - n * num) / den := by field_simp
  rw [e, div_le_iff₀ pos, sub_le_iff_le_add]
  exact_mod_cast Iff.rfl

/-- `d ≤ n × (1 + TOL)` in the rationals, with TOL's denominator multiplied out. -/
theorem upperBound_iff (n d num den : ℕ) (h : den ≠ 0) :
    (d : ℚ) ≤ n * (1 + (num : ℚ) / den) ↔ d * den ≤ n * den + n * num := by
  have pos : (0 : ℚ) < den := by exact_mod_cast Nat.pos_of_ne_zero h
  have e : (n : ℚ) * (1 + (num : ℚ) / den) = (n * den + n * num) / den := by field_simp
  rw [e, le_div_iff₀ pos]
  exact_mod_cast Iff.rfl

theorem windowLo_le_iff (r : Rom) (n : Duration) (d : ℕ) (h : r.tolDen ≠ 0) :
    windowLo r n ≤ d ↔ n.toNat * r.tolDen ≤ d * r.tolDen + n.toNat * r.tolNum := by
  rw [windowLo, Nat.div_le_iff_le_mul_add_pred (Nat.pos_of_ne_zero h), Nat.add_le_add_iff_right, Nat.mul_sub,
    Nat.sub_le_iff_le_add, Nat.mul_comm r.tolDen d]

theorem le_windowHi_iff (r : Rom) (n : Duration) (d : ℕ) (h : r.tolDen ≠ 0) :
    d ≤ windowHi r n ↔ d * r.tolDen ≤ n.toNat * r.tolDen + n.toNat * r.tolNum := by
  rw [windowHi, Nat.le_div_iff_mul_le (Nat.pos_of_ne_zero h), Nat.mul_add]

/-- The window predicate is a test against the two precomputed bounds. -/
theorem inWindow_iff_bounds (r : Rom) (n d : Duration) (h : r.tolDen ≠ 0) :
    inWindow r n d = true ↔ windowLo r n ≤ d.toNat ∧ d.toNat ≤ windowHi r n := by
  rw [inWindow_iff, windowLo_le_iff r n _ h, le_windowHi_iff r n _ h]

/-! ### Registers -/

theorem exec_rdReg_of_value {s : State} {a : Index} {v : Word} (h : readReg s a = .value v) :
    exec (.rdReg a) s = .next (s.withResponse .ok v) := by
  simp [exec, execRdReg, h]

/-! ### The statements of 00_scope -/

/-- Settles O12: no input leaves the state, and any input completes on a readable configuration. -/
theorem everyCommandCompletes : Obligations.EveryCommandCompletes := by
  intro s legal readable
  suffices done : ∃ t, step s = .next t from done.imp fun _ ht => ⟨ht, step_next_cfg ht⟩
  cases hi : s.inputs with
  | nil => exact ⟨s, step_of_no_input legal hi⟩
  | cons x rest =>
    rw [step_of_input legal hi]
    exact runInput_completes (s := { s with inputs := rest }) readable x

/-- Settles O29: both bounds with TOL's denominator multiplied out, and the precomputed bounds at TOL = 35/100. -/
theorem windowIsExact : Obligations.WindowIsExact := by
  intro r n d h
  refine ⟨?_, fun hnum hden => ?_, isGap_iff r d⟩
  · rw [inWindow_iff, lowerBound_iff _ _ _ _ h, upperBound_iff _ _ _ _ h]
  · rw [inWindow_iff_bounds r n d h, windowLo, windowHi, hnum, hden, Nat.mul_comm n.toNat, Nat.mul_comm n.toNat]

/-- Settles O30, for a TOL above 1 too, where the lower bound is 0. -/
theorem precomputedBoundsAgree : Obligations.PrecomputedBoundsAgree := inWindow_iff_bounds

/-- Settles O58, by induction on the commands before the inserted one. -/
theorem insertedReadIsInvisible : Obligations.InsertedReadIsInvisible := by
  intro before after i s hi readable
  refine ⟨?_, responsesOf_eraseIdx hi readable before after⟩
  rw [responsesOf_length readable, List.length_append, List.length_cons, Nat.add_assoc]

/-- Settles O8: the decoder rejects every word that rule R101 calls illegal. -/
theorem stepRunsDecodedCommand : Obligations.StepRunsDecodedCommand := by
  intro s cmd din rest legal hi
  rw [step_of_input legal hi]
  exact ⟨fun i hd => runCommand_of_ok hd _, fun illegal => runCommand_of_illegal illegal din _⟩

/-- Settles O10. -/
theorem noInputChangesNothing : Obligations.NoInputChangesNothing := fun _ => step_of_no_input

/-- Settles O11. -/
theorem onlyLegalInstancesStep : Obligations.OnlyLegalInstancesStep := by
  refine ⟨fun c => ?_, by decide, fun s => step_of_not_legal⟩
  rw [configLegal_iff]
  simp only [and_assoc, Rom.durations]

/-- Settles O16. -/
theorem resetHoldsDefaultInstance : Obligations.ResetHoldsDefaultInstance := ⟨rfl, rfl, rfl⟩

/-- Settles O54: each of the twelve rows is a value of the register map at the default configuration. -/
theorem defaultConstantRegisters : Obligations.DefaultConstantRegisters := by
  intro s hcfg row hrow
  refine exec_rdReg_of_value ?_
  fin_cases hrow <;> simp [readReg, hcfg, countWord, Config.default, Config.pbufDepth, Rom.default, Rom.tolPercent]

end Sys2Proof.Machine

/-! SUPPORT and PROOFS for the statements of 10_state: the invariants operation by operation, what each command writes, and the
register map. -/

namespace Sys2Proof.Machine

/-! ### Invariants of a step -/

/-- A property that does not read the port, holds at reset of every legal configuration and is kept by every change is kept by every
step. -/
theorem step_keeps {P : State → Prop} (port : ∀ s i r, P s → P { s with inputs := i, response := r })
    (reset : ∀ c : Config, c.legal = true → P (State.resetWith c)) (change : ∀ {s u}, Change s u → P s → P u)
    {s t : State} (hs : P s) (h : step s = .next t) : P t := by
  obtain ⟨legal, rfl | ⟨rest, rfl | ⟨u, st, v, hu, rfl⟩⟩⟩ := step_cases h
  · exact hs
  · exact port _ _ _ (reset s.cfg legal)
  · exact port _ _ _ (change hu (port s rest s.response hs))

/-! ### The invariants of rule R58 -/

theorem finalize_ne_errHardware (c : Config) (es : List Edge) : finalize c es ≠ .errHardware := by
  rcases List.eq_nil_or_concat es with rfl | ⟨es, e, rfl⟩
  · exact nofun
  · rw [List.concat_eq_append, finalize_append]
    split_ifs <;> decide

/-- The repeat window alone gives a repeat class, and its tag is NEC (rule R156). -/
theorem classifyPulses_repeat {r : Rom} {pulses : List Edge} (h : (classifyPulses r pulses).2 = true) :
    (classifyPulses r pulses).1 = .nec := by
  unfold classifyPulses at *
  split_ifs at *
  rfl

/-- The encoder ROM holds nothing but ROM durations (rule R210). -/
theorem mem_durations_of_mem_trainOf {r : Rom} {p : Protocol} {bits : List Bool} {d : Duration}
    (h : d ∈ trainOf r p bits) : d ∈ r.durations := by
  induction bits with
  | nil => cases h
  | cons b bits ih =>
    rcases List.mem_cons.mp h with rfl | h
    · cases p <;> cases b <;> simp [Rom.enc, Rom.long, Rom.short, Rom.unit, Rom.durations]
    rcases List.mem_cons.mp h with rfl | h
    · cases p <;> simp [Rom.enc, Rom.unit, Rom.durations]
    · exact ih h

theorem durations_lt_of_legal {c : Config} (h : c.legal = true) : ∀ d ∈ c.rom.durations, d.toNat < 2 ^ c.durW :=
  ((configLegal_iff c).mp h).2.2.2.2

theorem StateInv.resetWith {c : Config} (legal : c.legal = true) : StateInv (State.resetWith c) where
  legal := legal
  buffers := resetWith_wf c
  edgeWidth := nofun
  pulseWidth := nofun
  plenEven := rfl
  noHardwareError := nofun
  capturing _ := rfl
  idle _ := ⟨rfl, rfl⟩
  repeatFrame := nofun
  repeatClass := nofun

section

variable {s : State} (inv : StateInv s)
include inv

theorem StateInv.port (i : List HostInput) (r : Option Response) : StateInv { s with inputs := i, response := r } := { inv with }

theorem StateInv.beginCapture : StateInv s.beginCapture :=
  { inv with
    buffers := beginCapture_wf s inv.buffers
    edgeWidth := nofun
    noHardwareError := nofun
    capturing := fun _ => rfl
    idle := nofun }

theorem StateInv.pushEdge {e : Edge} (running : s.segState = .capturing) (room : s.ebuf.length ≠ s.cfg.ebufDepth)
    (width : e.dur.toNat < 2 ^ s.cfg.durW) : StateInv (s.pushEdge e) :=
  { inv with
    buffers := pushEdge_wf s e inv.buffers room
    edgeWidth := by
      intro x hx
      rcases List.mem_append.mp hx with hx | hx
      · exact inv.edgeWidth x hx
      · exact List.mem_singleton.mp hx ▸ width
    idle := fun h => nomatch running.symm.trans h }

theorem StateInv.endCapture {r : CapResult} (hr : r ≠ .errHardware) : StateInv (s.endCapture r) :=
  { inv with
    noHardwareError := hr
    capturing := nofun
    idle := nofun }

theorem StateInv.commitFrame {d : DStat} {g : Tag} {k : FKind} {bits : List Bool} (fits : bits.length ≤ s.cfg.fbufDepth)
    (rep : k = .repeatCode → bits = [] ∧ g = .nec) : StateInv (s.commitFrame d g k bits) :=
  { inv with
    buffers := commitFrame_wf s d g k bits inv.buffers fits
    repeatFrame := fun h => (rep h).imp_left (congrArg List.length) }

theorem StateInv.pushBit (b : Bool) (room : s.fbuf.length ≠ s.cfg.fbufDepth) : StateInv (s.pushBit b) :=
  { inv with
    buffers := pushBit_wf s b inv.buffers room
    repeatFrame := nofun }

/-- A train of whole pairs of ROM durations fits PBUF, because its Frame fits FBUF (rules R11, R22, R217). -/
theorem StateInv.writeTrain (e : EStat) (p : Protocol) {bits : List Bool} (fits : bits.length ≤ s.cfg.fbufDepth) :
    StateInv (s.writeTrain e (trainOf s.cfg.rom p bits)) :=
  { inv with
    buffers := writeTrain_wf s e _ inv.buffers (by rw [trainOf_length]; omega)
    pulseWidth := fun d hd => durations_lt_of_legal inv.legal d (mem_durations_of_mem_trainOf hd)
    plenEven := by simp [State.plen] }

end

/-- Every change keeps the invariants of rule R58. -/
theorem Change.keeps_stateInv {s u : State} (h : Change s u) (inv : StateInv s) : StateInv u := by
  cases h with
  | same => exact inv
  | began => exact inv.beginCapture
  | overflowed _ _ => exact inv.endCapture (by decide)
  | pushed e running room width _ => exact inv.pushEdge running room width
  | pushedLast e running room width _ _ => exact (inv.pushEdge running room width).endCapture (by split_ifs <;> decide)
  | stopped _ => exact inv.endCapture (finalize_ne_errHardware _ _)
  | classified _ => exact { inv with repeatClass := classifyPulses_repeat }
  | noFrame d _ _ _ _ => exact inv.commitFrame (Nat.zero_le _) (by decide)
  | repeatFrame _ => exact inv.commitFrame (Nat.zero_le _) fun _ => ⟨rfl, rfl⟩
  | dataFrame p bits _ _ fits => exact inv.commitFrame fits nofun
  | cleared => exact inv.commitFrame (Nat.zero_le _) (by decide)
  | bit b room => exact inv.pushBit b room
  | noTrain e _ => exact inv.writeTrain e .nec (bits := []) (Nat.zero_le _)
  | train p _ => exact inv.writeTrain .ok p ((Memory.wf_iff s).mp inv.buffers).2.1

theorem CaptureShape.resetWith (c : Config) : CaptureShape (State.resetWith c) where
  running := nofun
  idle _ := rfl
  success := nofun

/-! ### The meaning of CVALID (rule R40) -/

theorem ClassFresh.resetWith (c : Config) : ClassFresh (State.resetWith c) := nofun

/-- A running capture has CVALID 0, so a change of EBUF or of SEG_STATE finds no classification to spoil. -/
theorem ClassFresh.of_capturing {s u : State} (fresh : ClassFresh s) (running : s.segState = .capturing)
    (hv : u.cvalid = s.cvalid) : ClassFresh u :=
  fun h => absurd running (fresh (hv ▸ h)).1

/-- Every change keeps the meaning of CVALID. -/
theorem Change.keeps_classFresh {s u : State} (h : Change s u) (fresh : ClassFresh s) : ClassFresh u := by
  cases h with
  | began => exact nofun
  | overflowed running _ => exact fresh.of_capturing running rfl
  | pushed _ running _ _ _ => exact fresh.of_capturing running rfl
  | pushedLast _ running _ _ _ _ => exact fresh.of_capturing running rfl
  | stopped running => exact fresh.of_capturing running rfl
  | classified stopped => exact fun _ => ⟨stopped, rfl⟩
  | _ => exact fresh

/-! ### The frame and encoder results (rules R41 to R47) -/

theorem FrameConsistent.resetWith (c : Config) : FrameConsistent (State.resetWith c) where
  dataHasBits := by simp [State.resetWith, State.flen]
  decodedData := nofun
  decodedRepeat := nofun
  notDecoded _ _ := ⟨rfl, by simp [State.resetWith]⟩
  encoded := by simp [State.resetWith, State.plen]

theorem tag_ne_unknown (p : Protocol) : p.tag ≠ .unknown := by cases p <;> decide

section

variable {s : State} (ok : FrameConsistent s)
include ok

theorem FrameConsistent.port (i : List HostInput) (r : Option Response) :
    FrameConsistent { s with inputs := i, response := r } := { ok with }

/-- The encoder's results stay whatever Frame is committed. -/
theorem FrameConsistent.commitFrame {d : DStat} {g : Tag} {k : FKind} {bits : List Bool} (hbits : k = .data ↔ bits ≠ [])
    (hdata : d = .data → g ≠ .unknown ∧ k = .data) (hrep : d = .repeatCode → g = .nec)
    (hnone : d ≠ .data → d ≠ .repeatCode → g = .unknown ∧ k ≠ .repeatCode) : FrameConsistent (s.commitFrame d g k bits) :=
  { ok with
    dataHasBits := hbits.trans (not_congr List.length_eq_zero_iff.symm)
    decodedData := hdata
    decodedRepeat := hrep
    notDecoded := hnone }

/-- A pushed bit makes a DATA Frame of any Frame, and leaves DSTAT and FTAG (rule R215). -/
theorem FrameConsistent.pushBit (b : Bool) : FrameConsistent (s.pushBit b) :=
  { ok with
    dataHasBits := by simp [State.flen]
    decodedData := fun h => ⟨(ok.decodedData h).1, rfl⟩
    notDecoded := fun h h' => ⟨(ok.notDecoded h h').1, by simp⟩ }

theorem FrameConsistent.writeTrain {e : EStat} {train : List Duration} (h : e = .ok ↔ train ≠ []) :
    FrameConsistent (s.writeTrain e train) :=
  { ok with encoded := h.trans (not_congr List.length_eq_zero_iff.symm) }

end

/-- Every change keeps the frame and encoder results consistent. -/
theorem Change.keeps_frameConsistent {s u : State} (h : Change s u) (ok : FrameConsistent s) : FrameConsistent u := by
  cases h with
  | noFrame d _ _ hd hr => exact ok.commitFrame (by decide) (absurd · hd) (absurd · hr) fun _ _ => by decide
  | repeatFrame _ => exact ok.commitFrame (by decide) (by decide) (by decide) (by decide)
  | dataFrame p bits _ hb _ => exact ok.commitFrame (by simpa) (fun _ => ⟨tag_ne_unknown p, rfl⟩) nofun (absurd rfl ·)
  | cleared => exact ok.commitFrame (by decide) (by decide) (by decide) (by decide)
  | bit b _ => exact ok.pushBit b
  | noTrain e he => exact ok.writeTrain (by simpa)
  | train p hb => exact ok.writeTrain (by simpa [← List.length_eq_zero_iff] using hb)
  | _ => exact { ok with }

/-! ### What each command writes (rules R32 to R48) -/

theorem execCapPush_writes {l : Level} {din : Word} {s t : State} (h : execCapPush l din s = .next t) :
    ∃ q r es st v, t = State.withResponse { s with segState := q, capResult := r, ebuf := es } st v := by
  simp only [execCapPush, State.afterPush, respondOk_eq, fail_eq] at h
  split_ifs at h <;> cases h <;> exact ⟨_, _, _, _, _, rfl⟩

theorem execCapStop_writes {s t : State} (h : execCapStop s = .next t) :
    ∃ q r st v, t = State.withResponse { s with segState := q, capResult := r } st v := by
  simp only [execCapStop, respondOk_eq, fail_eq] at h
  split_ifs at h <;> cases h <;> exact ⟨_, _, _, _, rfl⟩

theorem execClassify_writes {s t : State} (h : execClassify s = .next t) :
    ∃ g r cv st v, t = State.withResponse { s with ctag := g, crep := r, cvalid := cv } st v := by
  simp only [execClassify, respondOk_eq, fail_eq] at h
  split_ifs at h <;> cases h <;> exact ⟨_, _, _, _, _, rfl⟩

theorem decodeAs_writes (s : State) (p : Protocol) : ∃ d g k bits, s.decodeAs p = s.commitFrame d g k bits := by
  simp only [State.decodeAs]
  split_ifs <;> exact ⟨_, _, _, _, rfl⟩

theorem execDecode_writes {g : Tag} {s t : State} (h : execDecode g s = .next t) :
    ∃ d f k bits st v, t = (s.commitFrame d f k bits).withResponse st v := by
  simp only [execDecode, respondOk_eq, fail_eq] at h
  split at h
  · cases h; exact ⟨_, _, _, _, _, _, rfl⟩
  · cases h
    cases g.protocol? with
    | none => exact ⟨_, _, _, _, _, _, rfl⟩
    | some p =>
      obtain ⟨d, f, k, bits, e⟩ := decodeAs_writes s p
      exact ⟨d, f, k, bits, _, _, congrArg (State.withResponse · _ _) e⟩

theorem execFbPush_writes {b : Bool} {s t : State} (h : execFbPush b s = .next t) :
    ∃ k bits st v, t = State.withResponse { s with fkind := k, fbuf := bits } st v := by
  simp only [execFbPush, respondOk_eq, fail_eq] at h
  split_ifs at h <;> cases h <;> exact ⟨_, _, _, _, rfl⟩

theorem execEncode_writes {g : Tag} {s t : State} (h : execEncode g s = .next t) :
    ∃ e train st v, t = (s.writeTrain e train).withResponse st v := by
  simp only [execEncode, respondOk_eq, fail_eq] at h
  split at h
  · cases h; exact ⟨_, _, _, _, rfl⟩
  · split at h <;> cases h <;> exact ⟨_, _, _, _, rfl⟩

/-! ### Register reads (rules R51 to R56) -/

theorem exec_rdReg_of_unmapped {s : State} {a : Index} (h : 0x12 < a.toNat) :
    exec (.rdReg a) s = .next (s.withResponse .index 0) := by
  simp [exec, execRdReg, (readReg_eq_unmapped s a).mpr h]

theorem exec_rdReg_of_unreadable {s : State} {a : Index} (h : readReg s a = .unreadable) :
    exec (.rdReg a) s = .refused .tolNotReadable := by
  simp [exec, execRdReg, h]

theorem encode_rdReg_toNat (a : Index) : (encode (.rdReg a)).1.toNat = 0xB0000000 + a.toNat := packFields_toNat ..

/-! ### The statements of 10_state -/

/-- Settles O18, change by change. -/
theorem stepKeepsStateInvariant : Obligations.StepKeepsStateInvariant :=
  fun _ _ => step_keeps (fun _ i r inv => inv.port i r) (fun _ => StateInv.resetWith) Change.keeps_stateInv

/-- Settles O20, change by change. -/
theorem stepKeepsClassificationFresh : Obligations.StepKeepsClassificationFresh :=
  fun _ _ => step_keeps (fun _ _ _ => id) (fun c _ => ClassFresh.resetWith c) Change.keeps_classFresh

/-- Settles O21, change by change. -/
theorem stepKeepsFrameConsistent : Obligations.StepKeepsFrameConsistent :=
  fun _ _ => step_keeps (fun _ i r ok => ok.port i r) (fun c _ => FrameConsistent.resetWith c) Change.keeps_frameConsistent

/-- Settles O14: each command's next state is the old one but for the pieces it writes. -/
theorem everyCommandsFrame : Obligations.EveryCommandsFrame := by
  intro i s t h
  cases i with
  | capStart => cases h; simp
  | capPush l din => obtain ⟨q, r, es, st, v, rfl⟩ := execCapPush_writes h; simp
  | capStop => obtain ⟨q, r, st, v, rfl⟩ := execCapStop_writes h; simp
  | classify => obtain ⟨g, r, cv, st, v, rfl⟩ := execClassify_writes h; simp
  | decode g => obtain ⟨d, f, k, bits, st, v, rfl⟩ := execDecode_writes h; simp
  | fbClear => cases h; simp
  | fbPush b => obtain ⟨k, bits, st, v, rfl⟩ := execFbPush_writes h; simp
  | encode g => obtain ⟨e, train, st, v, rfl⟩ := execEncode_writes h; simp
  | _ => obtain ⟨st, v, rfl⟩ := exec_of_writesNothing rfl h; simp

/-- Settles O52: the layouts as numbers, row by row, and no row above 0x0012. -/
theorem registerMap : Obligations.RegisterMap := by
  refine ⟨encode_rdReg_toNat, fun s => ?_⟩
  rw [← segReg_eq, ← clsReg_eq, ← decReg_eq, ← encReg_eq]
  exact ⟨rfl, rfl, rfl, rfl, rfl, rfl, rfl, rfl, rfl, rfl, rfl, rfl, rfl, rfl, rfl, rfl, rfl, rfl,
    fun a => exec_rdReg_of_unmapped⟩

/-- Settles O53: TOL as a percentage is shown exactly when it is an integer that a word holds. -/
theorem tolerancePercentRegister : Obligations.TolerancePercentRegister := by
  intro s hden
  refine ⟨fun pct h hlt => ?_, fun h => ?_⟩
  · have shown : s.cfg.rom.tolPercent = some (BitVec.ofNat 32 pct) := by
      rw [tolPercent_eq_some _ hden, BitVec.toNat_ofNat, Nat.mod_eq_of_lt hlt, h]
    exact exec_rdReg_of_value (by simp [readReg, shown])
  · have none_shown : s.cfg.rom.tolPercent = none :=
      Option.eq_none_iff_forall_ne_some.mpr fun v hv => h v.toNat v.isLt ((tolPercent_eq_some _ hden v).mp hv)
    exact exec_rdReg_of_unreadable (by simp [readReg, none_shown])

/-- Settles O7. -/
theorem codeNumbers : Obligations.CodeNumbers := by
  unfold Obligations.CodeNumbers
  decide

/-- Settles O9. -/
theorem resetInputRestoresResetValues : Obligations.ResetInputRestoresResetValues := fun _ _ => step_of_input

/-- Settles O15. -/
theorem resetState : Obligations.ResetState := fun _ => by simp [State.resetWith]

/-- Settles O22. -/
theorem resetMeetsInvariants : Obligations.ResetMeetsInvariants :=
  ⟨.resetWith (by decide), .resetWith _, .resetWith _, .resetWith _⟩

end Sys2Proof.Machine

/-! SUPPORT and PROOFS for the statements of 20_memory: what each command does to EBUF, and the commands that write no state. -/

namespace Sys2Proof.Machine

/-! ### What a push does to EBUF (rules R71, R126 to R128) -/

/-- The end-of-capture test leaves EBUF. -/
@[simp] theorem afterPush_ebuf (s : State) : s.afterPush.ebuf = s.ebuf := by
  unfold State.afterPush
  split <;> rfl

/-- CAP_PUSH leaves EBUF, or stores its entry after the old ones; it stores it only in a running capture with room. -/
theorem execCapPush_ebuf {l : Level} {din : Word} {s t : State} (h : execCapPush l din s = .next t) :
    t.ebuf = s.ebuf ∨ (s.segState = .capturing ∧ s.ebuf.length ≠ s.cfg.ebufDepth ∧
      t.ebuf = s.ebuf ++ [{ dur := durationOf s.cfg din, lvl := l }]) := by
  simp only [execCapPush, respondOk_eq, fail_eq] at h
  split_ifs at h with running full <;> cases h
  · exact .inl rfl
  · exact .inl rfl
  · exact .inr ⟨not_not.mp running, full, by simp⟩

/-! ### The statements of 20_memory -/

/-- Settles O28: CAP_START and CAP_PUSH by what they do to EBUF, every other command by its frame. -/
theorem edgeBufferOnlyAppends : Obligations.EdgeBufferOnlyAppends := by
  intro i s t h
  obtain ⟨-, -, -, unwritten, -⟩ := everyCommandsFrame i s t h
  cases i with
  | capStart => cases h; exact .inr (.inl ⟨rfl, rfl⟩)
  | capPush l din => exact (execCapPush_ebuf h).imp_right fun stored => .inr ⟨l, din, rfl, stored⟩
  | _ => exact .inl (unwritten nofun nofun)

/-- Settles O57: only the response is written, and no command reads it. -/
theorem readsWriteNothing : Obligations.ReadsWriteNothing := by
  intro i s t hi h
  obtain ⟨st, v, rfl⟩ := exec_of_writesNothing hi h
  exact ⟨rfl, (exec_withResponse i s st v).trans h⟩

end Sys2Proof.Machine

/-! SUPPORT and PROOFS for the statements of 30_encoding: what the decoder accepts in terms of the encoder, the row of each command,
the decoding procedure on the fields, the value of a failed response, and a Frame loaded bit by bit. -/

namespace Sys2Proof.Machine

/-! ### Decoding is the inverse of encoding (rules R92, R95, R104, R105) -/

/-- The duration operand, where the command has one, is the data word (rule R92). -/
def HasDin (din : Word) : Instr → Prop
  | .capPush _ d => d = din
  | .cmp d => d = din
  | _ => True

theorem hasDin_encodeDin (i : Instr) : HasDin (encodeDin i) i := by
  cases i with
  | capPush l d => rfl
  | cmp d => rfl
  | _ => trivial

theorem decode_encodeCmd {din : Word} {i : Instr} (h : HasDin din i) : decode (encodeCmd i) din = .ok i := by
  cases i with
  | capPush l d => cases h; simp [encodeCmd, decode, decodePush]
  | cmp d => cases h; simp [encodeCmd, decode, whenUnusedZero]
  | _ => simp [encodeCmd, decode, whenUnusedZero, decodeRead]

theorem unlessUsed_eq_ok {c : Prop} [Decidable c] {r : Except Illegal Instr} {i : Instr} :
    (if c then r else .error .unusedField) = .ok i ↔ c ∧ r = .ok i := by
  by_cases h : c <;> simp [h]

theorem decodePush_eq_ok {lvl : BitVec 2} {din : Word} {i : Instr} :
    decodePush lvl din = .ok i ↔ ∃ l, lvl = levelCode l ∧ i = .capPush l din := by
  simp only [← levelOf_eq_some, decodePush]
  cases levelOf lvl <;> simp [eq_comm]

theorem encodeCmd_of_decodeRead {sel : BitVec 3} {idx : Index} {i : Instr} (h : decodeRead sel idx = .ok i) (din : Word) :
    encodeCmd i = packFields 0xB 0 0 0 sel 0 idx ∧ HasDin din i := by
  unfold decodeRead at h
  split at h <;> cases h
  all_goals
    rename_i hsel
    exact ⟨by simp [encodeCmd, packFields_inj, ← BitVec.toNat_inj (y := sel), hsel], trivial⟩

/-- An accepted word is the encoding of the command it decodes to: the unused fields are 0, and each used field is its
operand's code. -/
theorem encodeCmd_of_decode {cmd din : Word} {i : Instr} (h : decode cmd din = .ok i) :
    encodeCmd i = cmd ∧ HasDin din i := by
  rw [← packFields_fields cmd]
  unfold decode at h
  generalize opField cmd = op, tagField cmd = tag, lvlField cmd = lvl, bitField cmd = bit,
    selField cmd = sel, rsvField cmd = rsv, idxField cmd = idx at h ⊢
  split at h
  case isTrue => cases h
  case isFalse hrsv =>
    rw [not_not] at hrsv
    split at h
    -- CAP_PUSH
    case h_3 hop =>
      simp only [unlessUsed_eq_ok, decodePush_eq_ok, Bool.and_eq_true, decide_eq_true_iff] at h
      obtain ⟨unused, l, hlvl, rfl⟩ := h
      exact ⟨by simp [encodeCmd, packFields_inj, ← BitVec.toNat_inj (y := op), *], rfl⟩
    -- the reads
    case h_12 hop =>
      simp only [unlessUsed_eq_ok, Bool.and_eq_true, decide_eq_true_iff] at h
      obtain ⟨unused, hread⟩ := h
      obtain ⟨hcmd, hdin⟩ := encodeCmd_of_decodeRead hread din
      exact ⟨by simp [packFields_inj, ← BitVec.toNat_inj (y := op), *], hdin⟩
    -- the reserved opcodes
    case h_13 => cases h
    all_goals
      rename_i hop
      simp only [whenUnusedZero_eq_ok, Bool.and_eq_true, decide_eq_true_iff] at h
      obtain ⟨unused, rfl⟩ := h
      exact ⟨by simp [encodeCmd, packFields_inj, ← BitVec.toNat_inj (y := op), *], by simp [HasDin]⟩

theorem decode_eq_ok_iff {cmd din : Word} {i : Instr} : decode cmd din = .ok i ↔ encodeCmd i = cmd ∧ HasDin din i := by
  refine ⟨encodeCmd_of_decode, ?_⟩
  rintro ⟨rfl, h⟩
  exact decode_encodeCmd h

/-! ### The row of each command (rule R108) -/

/-- A row's mask: all ones, but 0 on the fields that hold operands. -/
def rowMask (tag lvl bit idx : Bool) : Word :=
  packFields (.allOnes 4) (if tag then 0 else .allOnes 2) (if lvl then 0 else .allOnes 2) (if bit then 0 else .allOnes 1)
    (.allOnes 3) (.allOnes 4) (if idx then 0 else .allOnes 16)

theorem rowMasks :
    (0xFFFFFFFF : Word) = rowMask false false false false ∧ (0xFCFFFFFF : Word) = rowMask false true false false ∧
    (0xF3FFFFFF : Word) = rowMask true false false false ∧ (0xFF7FFFFF : Word) = rowMask false false true false ∧
    (0xF37FFFFF : Word) = rowMask true false true false ∧ (0xFFFF0000 : Word) = rowMask false false false true := by
  decide

theorem and_fieldMask_eq_zero_iff {n : ℕ} (operand : Bool) (x : BitVec n) :
    (x &&& if operand then 0 else .allOnes n) = 0 ↔ operand = true ∨ x = 0 := by
  cases operand <;> simp

/-- A word agrees with a row when it has the row's opcode and selector, and 0 in every field that holds no operand. -/
theorem and_rowMask_eq_iff (w : Word) (op : BitVec 4) (sel : BitVec 3) {tag lvl bit idx : Bool} {row : Word}
    (hrow : row = packFields op 0 0 0 sel 0 0) :
    w &&& rowMask tag lvl bit idx = row ↔
      opField w = op ∧ (tag = true ∨ tagField w = 0) ∧ (lvl = true ∨ lvlField w = 0) ∧ (bit = true ∨ bitField w = 0) ∧
        selField w = sel ∧ rsvField w = 0 ∧ (idx = true ∨ idxField w = 0) := by
  conv_lhs => rw [hrow, ← packFields_fields w]
  simp only [rowMask, packFields_and, packFields_inj, and_fieldMask_eq_zero_iff, BitVec.and_allOnes]

theorem packFields_eq_iff (w : Word) (op : BitVec 4) (tag lvl : BitVec 2) (bit : BitVec 1) (sel : BitVec 3) (rsv : BitVec 4)
    (idx : Index) : packFields op tag lvl bit sel rsv idx = w ↔
      opField w = op ∧ tagField w = tag ∧ lvlField w = lvl ∧ bitField w = bit ∧ selField w = sel ∧ rsvField w = rsv ∧
        idxField w = idx := by
  conv_lhs => rw [← packFields_fields w, eq_comm, packFields_inj]

theorem exists_eq_tagCode (b : BitVec 2) : ∃ t, b = tagCode t := ⟨tagOf b, (tagCode_tagOf b).symm⟩

theorem eq_bitCode (b : BitVec 1) : b = bitCode false ∨ b = bitCode true := by revert b; decide

theorem exists_eq_levelCode_iff (b : BitVec 2) : (∃ l, b = levelCode l) ↔ b ≠ 3 := by
  simp only [← levelOf_eq_some, ← Option.ne_none_iff_exists', Ne, levelOf_eq_none]

/-! ### The decoding procedure (rule R104) -/

/-- A slice is 0 when both of its parts are. -/
theorem slice_eq_zero_iff (w : Word) (k m n : ℕ) :
    w.extractLsb' k (m + n) = 0#(m + n) ↔ w.extractLsb' (k + m) n = 0#n ∧ w.extractLsb' k m = 0#m := by
  simp [← BitVec.toNat_inj, Nat.pow_add, Nat.mod_mul, Nat.shiftRight_add, Nat.shiftRight_eq_div_pow _ m, and_comm]

theorem slice_0_23_eq_zero_iff (w : Word) :
    w.extractLsb' 0 23 = 0#23 ↔ selField w = 0#3 ∧ rsvField w = 0#4 ∧ idxField w = 0#16 :=
  (slice_eq_zero_iff w 0 20 3).trans (and_congr_right' (slice_eq_zero_iff w 0 16 4))

theorem slice_0_24_eq_zero_iff (w : Word) : w.extractLsb' 0 24 = 0#24 ↔ bitField w = 0#1 ∧ w.extractLsb' 0 23 = 0#23 :=
  slice_eq_zero_iff w 0 23 1

theorem slice_0_26_eq_zero_iff (w : Word) : w.extractLsb' 0 26 = 0#26 ↔ lvlField w = 0#2 ∧ w.extractLsb' 0 24 = 0#24 :=
  slice_eq_zero_iff w 0 24 2

theorem slice_0_28_eq_zero_iff (w : Word) : w.extractLsb' 0 28 = 0#28 ↔ tagField w = 0#2 ∧ w.extractLsb' 0 26 = 0#26 :=
  slice_eq_zero_iff w 0 26 2

theorem slice_24_4_eq_zero_iff (w : Word) : w.extractLsb' 24 4 = 0#4 ↔ tagField w = 0#2 ∧ lvlField w = 0#2 :=
  slice_eq_zero_iff w 24 2 2

theorem slice_23_5_eq_zero_iff (w : Word) : w.extractLsb' 23 5 = 0#5 ↔ w.extractLsb' 24 4 = 0#4 ∧ bitField w = 0#1 :=
  slice_eq_zero_iff w 23 1 4

/-- The slices that are fields of rule R91. -/
theorem slice_eq_field (w : Word) : w.extractLsb' 28 4 = opField w ∧ w.extractLsb' 26 2 = tagField w ∧
    w.extractLsb' 24 2 = lvlField w ∧ w.extractLsb' 20 3 = selField w ∧ w.extractLsb' 0 16 = idxField w :=
  ⟨rfl, rfl, rfl, rfl, rfl⟩

theorem getElem_23_eq_bit (w : Word) : w[23] = bitOfCode (bitField w) := by
  rw [BitVec.getElem_eq_extractLsb', bitOfCode, bitField, beq_eq_decide]
  rfl

@[simp] theorem illegal_toOption (e : Illegal) : (.error e : Except Illegal Instr).toOption = none := rfl

@[simp] theorem whenUnusedZero_toOption (z : Bool) (i : Instr) :
    (whenUnusedZero z i).toOption = if z then some i else none := by
  cases z <;> rfl

@[simp] theorem unlessUsed_toOption (c : Prop) [Decidable c] (r : Except Illegal Instr) :
    (if c then r else .error .unusedField).toOption = if c then r.toOption else none := by
  split <;> rfl

theorem levelOf_eq_ite (lvl : BitVec 2) :
    levelOf lvl = if lvl = 3 then none else some (if lvl = 0 then .low else if lvl = 1 then .high else .timeout) := by
  revert lvl; decide

@[simp] theorem decodePush_toOption (lvl : BitVec 2) (din : Word) : (decodePush lvl din).toOption =
    if lvl = 3 then none else some (.capPush (if lvl = 0 then .low else if lvl = 1 then .high else .timeout) din) := by
  rw [decodePush, levelOf_eq_ite]
  by_cases h : lvl = 3
  · rw [if_pos h, if_pos h]; rfl
  · rw [if_neg h, if_neg h]; rfl

@[simp] theorem decodeRead_toOption (sel : BitVec 3) (idx : Index) : (decodeRead sel idx).toOption =
    if sel = 0 then some (.rdReg idx) else if sel = 1 then some (.rdEdur idx) else if sel = 2 then some (.rdElvl idx)
    else if sel = 3 then some (.rdFbit idx) else if sel = 4 then some (.rdPulse idx) else none := by
  simp only [← BitVec.toNat_inj, decodeRead]
  split <;> simp_all [Except.toOption]

theorem decode_of_rsvField {cmd : Word} (h : rsvField cmd ≠ 0) (din : Word) : decode cmd din = .error .reservedBits :=
  if_pos h

theorem opcode_cases (op : BitVec 4) :
    op = 0x0 ∨ op = 0x1 ∨ op = 0x2 ∨ op = 0x3 ∨ op = 0x4 ∨ op = 0x5 ∨ op = 0x6 ∨ op = 0x7 ∨ op = 0x8 ∨ op = 0x9 ∨
      op = 0xA ∨ op = 0xB ∨ op = 0xC ∨ op = 0xD ∨ op = 0xE ∨ op = 0xF := by
  revert op; decide

/-! ### What a command responds (rules R90, R93, R263) -/

/-- Where a next state is answered it holds a response, with RDATA 0 unless RSTAT is OK (rule R263). -/
def ZeroOnFailure (result : Result) : Prop :=
  ∀ t, result = .next t → ∃ r, t.response = some r ∧ (r.rstat ≠ .ok → r.rdata = 0)

theorem zeroOnFailure_respondOk (v : Word) (s : State) : ZeroOnFailure (respondOk v s) := by
  rintro t ⟨⟩
  exact ⟨_, rfl, fun h => absurd rfl h⟩

theorem zeroOnFailure_fail (st : Status) (s : State) : ZeroOnFailure (fail st s) := by
  rintro t ⟨⟩
  exact ⟨_, rfl, fun _ => rfl⟩

theorem zeroOnFailure_refused (r : Refusal) : ZeroOnFailure (.refused r) := by
  intro t h
  cases h

theorem zeroOnFailure_ite {c : Prop} [Decidable c] {x y : Result} (hx : ZeroOnFailure x) (hy : ZeroOnFailure y) :
    ZeroOnFailure (if c then x else y) := by
  split
  · exact hx
  · exact hy

theorem zeroOnFailure_respondCell (cell : Option Word) (s : State) : ZeroOnFailure (respondCell cell s) := by
  cases cell with
  | none => exact zeroOnFailure_fail .index s
  | some v => exact zeroOnFailure_respondOk v s

theorem zeroOnFailure_exec (i : Instr) (s : State) : ZeroOnFailure (exec i s) := by
  cases i with
  | nop | capStart | fbClear | cmp d => exact zeroOnFailure_respondOk _ _
  | capPush l d =>
    exact zeroOnFailure_ite (zeroOnFailure_fail _ _) (zeroOnFailure_ite (zeroOnFailure_fail _ _) (zeroOnFailure_respondOk _ _))
  | capStop | classify | decode g | fbPush b =>
    exact zeroOnFailure_ite (zeroOnFailure_fail _ _) (zeroOnFailure_respondOk _ _)
  | encode g =>
    simp only [exec, execEncode]
    split
    · exact zeroOnFailure_fail _ _
    · exact zeroOnFailure_ite (zeroOnFailure_fail _ _) (zeroOnFailure_respondOk _ _)
  | romLookup g b =>
    refine zeroOnFailure_ite ?_ (zeroOnFailure_refused _)
    split
    · exact zeroOnFailure_fail _ _
    · exact zeroOnFailure_respondOk _ _
  | rdReg k =>
    simp only [exec, execRdReg]
    split
    · exact zeroOnFailure_respondOk _ _
    · exact zeroOnFailure_fail _ _
    · exact zeroOnFailure_refused _
  | rdEdur k | rdElvl k | rdFbit k | rdPulse k => exact zeroOnFailure_respondCell _ _

theorem zeroOnFailure_runCommand (cmd din : Word) (s : State) : ZeroOnFailure (runCommand cmd din s) := by
  rcases runCommand_cases cmd din s with ⟨i, -, e⟩ | ⟨-, e⟩
  · exact e ▸ zeroOnFailure_exec i s
  · exact e ▸ zeroOnFailure_fail .illegal s

theorem runCommand_next_inputs {cmd din : Word} {s t : State} (h : runCommand cmd din s = .next t) : t.inputs = s.inputs := by
  rcases runCommand_cases cmd din s with ⟨i, -, e⟩ | ⟨-, e⟩
  · exact (everyCommandsFrame i s t (e ▸ h)).1
  · cases e.symm.trans h; rfl

theorem statusCode_le (st : Status) : (statusCode st).toNat ≤ 8 := by cases st <;> decide

/-! ### Loading a Frame (rules R106, R214, R215) -/

theorem execAll_cons {i : Instr} {s t : State} (h : exec i s = .next t) (is : List Instr) :
    execAll (i :: is) s = execAll is t := by
  simp [execAll, h]

theorem exec_fbPush_of_room {s : State} (room : s.fbuf.length ≠ s.cfg.fbufDepth) (b : Bool) :
    exec (.fbPush b) s = .next ((s.pushBit b).withResponse .ok (countWord (s.pushBit b).flen)) :=
  if_neg room

/-- Pushes that fit append their bits and write nothing else but FKIND and the response. -/
theorem execAll_fbPush {s : State} {bits : List Bool} (fits : s.fbuf.length + bits.length ≤ s.cfg.fbufDepth) :
    ∃ r, execAll (bits.map .fbPush) s = .next
      { s with fbuf := s.fbuf ++ bits, fkind := if bits = [] then s.fkind else .data, response := r } := by
  induction bits generalizing s with
  | nil => exact ⟨s.response, by simp [execAll]⟩
  | cons b bits ih =>
    rw [List.length_cons] at fits
    have pushed := exec_fbPush_of_room (s := s) (by omega) b
    have rest_fits : (s.fbuf ++ [b]).length + bits.length ≤ s.cfg.fbufDepth := by simp; omega
    obtain ⟨r, hr⟩ := ih (s := (s.pushBit b).withResponse .ok (countWord (s.pushBit b).flen)) rest_fits
    refine ⟨r, ?_⟩
    rw [List.map_cons, execAll_cons pushed, hr]
    simp

/-! ### The statements of 30_encoding -/

/-- Settles O1: the words of a command are accepted, and every operand is read back from its field. -/
theorem encodeThenDecodeGivesCommand : Obligations.EncodeThenDecodeGivesCommand :=
  fun i => decode_encodeCmd (hasDin_encodeDin i)

/-- Settles O2: every field of an accepted word is the command's own or 0. -/
theorem legalWordIsItsOwnEncoding : Obligations.LegalWordIsItsOwnEncoding := by
  intro cmd din i h
  obtain ⟨hcmd, hdin⟩ := encodeCmd_of_decode h
  refine ⟨hcmd, ?_, ?_⟩
  · rintro l d rfl; exact hdin
  · rintro d rfl; exact hdin

/-- Settles O3: opcode by opcode, the procedure's slices being fields and joins of fields. -/
theorem decodingFollowsProcedure : Obligations.DecodingFollowsProcedure := by
  intro cmd din
  by_cases hrsv : rsvField cmd = 0
  case neg => exact (congrArg Except.toOption (decode_of_rsvField hrsv din)).trans (if_pos hrsv).symm
  case pos =>
    refine Eq.trans ?_ (if_neg (not_not_intro hrsv)).symm
    rcases opcode_cases (opField cmd) with
      hop | hop | hop | hop | hop | hop | hop | hop | hop | hop | hop | hop | hop | hop | hop | hop
    all_goals
      simp [decode, hop, hrsv, slice_eq_field, slice_0_28_eq_zero_iff, slice_0_26_eq_zero_iff, slice_0_24_eq_zero_iff,
        slice_0_23_eq_zero_iff, slice_23_5_eq_zero_iff, slice_24_4_eq_zero_iff, getElem_23_eq_bit, ite_and, -not_and]

/-- Settles O4: a word is refused exactly when it is illegal, and the port answers a refusal with ILLEGAL. -/
theorem illegalWordsChangeNothing : Obligations.IllegalWordsChangeNothing := by
  intro cmd din
  refine ⟨?_, fun h => runCommand_of_illegal h din⟩
  rw [← not_exists, decode_isOk_iff, Bool.not_eq_false]

/-- Settles O5: both sides say that the word has the command's opcode and selector, and operands where the row allows them. -/
theorem wordsMatchTheirRow : Obligations.WordsMatchTheirRow := by
  intro cmd din
  obtain ⟨noOperand, lvlOperand, tagOperand, bitOperand, tagBitOperands, idxOperand⟩ := rowMasks
  simp only [decode_eq_ok_iff, HasDin, and_true, noOperand, lvlOperand, tagOperand, bitOperand, tagBitOperands, idxOperand]
  have row (op : BitVec 4) (sel : BitVec 3) := @and_rowMask_eq_iff cmd op sel
  rw [row 0x0 0 (hrow := by decide), row 0x1 0 (hrow := by decide), row 0x2 0 (hrow := by decide),
    row 0x3 0 (hrow := by decide), row 0x4 0 (hrow := by decide), row 0x5 0 (hrow := by decide),
    row 0x6 0 (hrow := by decide), row 0x7 0 (hrow := by decide), row 0x8 0 (hrow := by decide),
    row 0x9 0 (hrow := by decide), row 0xA 0 (hrow := by decide), row 0xB 0 (hrow := by decide),
    row 0xB 1 (hrow := by decide), row 0xB 2 (hrow := by decide), row 0xB 3 (hrow := by decide),
    row 0xB 4 (hrow := by decide)]
  simp [encodeCmd, packFields_eq_iff, slice_eq_field, exists_eq_tagCode, eq_bitCode, exists_eq_levelCode_iff, and_assoc,
    and_comm, and_left_comm]

/-- Settles O13: the port's command is run on the state without it, and no command writes the coming inputs. -/
theorem oneResponsePerCommand : Obligations.OneResponsePerCommand := by
  intro s t cmd din rest hi h
  obtain ⟨legal, -⟩ := step_cases h
  have ran : runCommand cmd din { s with inputs := rest } = .next t := (step_of_input legal hi).symm.trans h
  obtain ⟨r, hr, zero⟩ := zeroOnFailure_runCommand cmd din _ t ran
  exact ⟨runCommand_next_inputs ran, r, hr, statusCode_le r.rstat, zero⟩

/-- Settles O48: FB_CLEAR makes room, and then every push fits. -/
theorem loadFrameLoadsBits : Obligations.LoadFrameLoadsBits := by
  intro s bits fits
  have cleared : exec .fbClear s = .next ((s.commitFrame .none .unknown .none []).withResponse .ok 0) := rfl
  obtain ⟨r, hr⟩ := execAll_fbPush (s := (s.commitFrame .none .unknown .none []).withResponse .ok 0) (bits := bits)
    (by simpa using fits)
  exact ⟨_, (execAll_cons cleared _).trans hr, rfl, rfl, rfl, rfl, rfl, rfl, rfl, rfl, rfl, rfl, rfl, rfl, rfl⟩

/-- Settles O6. -/
theorem specWordsDecode : Obligations.SpecWordsDecode := by
  unfold Obligations.SpecWordsDecode
  decide

end Sys2Proof.Machine

/-! SUPPORT and PROOFS for the statements of 40_segmentor: what each segmentor command answers, and the shape of a capture. -/

namespace Sys2Proof.Machine

/-! ### The pulse stream under a push (rule R19) -/

/-- An entry stored after entry 0 is the new last pulse. -/
theorem pulsesOf_append {es : List Edge} (h : 1 ≤ es.length) (e : Edge) : pulsesOf (es ++ [e]) = pulsesOf es ++ [e] :=
  List.drop_append_of_le_length h

/-! ### What each segmentor command answers (rules R124, R126, R127, R131) -/

/-- A duration of `DUR_W` bits is read as it stands (rule R92). -/
theorem durationOf_of_lt {c : Config} {d : Word} (h : d.toNat < 2 ^ c.durW) : durationOf c d = d := by
  rw [durationOf, Nat.mod_eq_of_lt h, BitVec.ofNat_toNat, BitVec.setWidth_eq]

/-- The SEG value after a capture that ended with `r` (rule R52). -/
theorem segReg_endCapture (s : State) (r : CapResult) :
    (s.endCapture r).segReg = BitVec.ofNat 32 (2 + 16 * (capResultCode r).toNat) := segReg_eq _

/-- The SEG value while a capture is running (rule R52). -/
theorem segReg_of_running {s : State} (running : s.segState = .capturing) :
    s.segReg = BitVec.ofNat 32 (1 + 16 * (capResultCode s.capResult).toNat) := by
  rw [segReg_eq, running]; rfl

theorem exec_capPush_of_stopped {s : State} (stopped : s.segState ≠ .capturing) (l : Level) (din : Word) :
    exec (.capPush l din) s = .next (s.withResponse .notCapturing 0) :=
  if_pos stopped

theorem exec_capPush_of_full {s : State} (running : s.segState = .capturing) (full : s.ebuf.length = s.cfg.ebufDepth)
    (l : Level) (din : Word) : exec (.capPush l din) s = .next ((s.endCapture .overflow).withResponse .overflow 0) :=
  (if_neg (not_not_intro running)).trans (if_pos full)

theorem exec_capPush_of_room {s t : State} {l : Level} {din : Word} (running : s.segState = .capturing)
    (room : s.ebuf.length ≠ s.cfg.ebufDepth)
    (after : (s.pushEdge { dur := durationOf s.cfg din, lvl := l }).afterPush = t) :
    exec (.capPush l din) s = .next (t.withResponse .ok t.segReg) := by
  rw [← after]
  exact (if_neg (not_not_intro running)).trans (if_neg room)

/-- A gap that is not entry 0 ends the capture, with the result of its level (rules R122, R123). -/
theorem afterPush_of_gap {s : State} {e : Edge} (second : 1 ≤ s.ebuf.length) (gap : s.cfg.rom.maxGap.toNat < e.dur.toNat) :
    (s.pushEdge e).afterPush = (s.pushEdge e).endCapture (if e.lvl = .timeout then .short else .success) := by
  have gap := (isGap_iff _ _).mpr gap
  simp [State.afterPush, endsCapture_append, finalize_append, second, gap, List.ne_nil_of_length_pos second]

/-- After entry 0, and after an entry that is no gap, the capture goes on (rule R122). -/
theorem afterPush_of_no_end {s : State} {e : Edge} (h : ¬ (1 ≤ s.ebuf.length ∧ s.cfg.rom.maxGap.toNat < e.dur.toNat)) :
    (s.pushEdge e).afterPush = s.pushEdge e := by
  rw [← isGap_iff] at h
  exact if_neg (by simpa [endsCapture_append] using h)

theorem exec_capStop_of_stopped {s : State} (stopped : s.segState ≠ .capturing) :
    exec .capStop s = .next (s.withResponse .notCapturing 0) :=
  if_pos stopped

theorem exec_capStop_of_running {s : State} {r : CapResult} (running : s.segState = .capturing)
    (result : finalize s.cfg s.ebuf = r) :
    exec .capStop s =
      .next ((s.endCapture r).withResponse .ok (BitVec.ofNat 32 (2 + 16 * (capResultCode r).toNat))) := by
  rw [← segReg_endCapture s, ← result]
  exact if_neg (not_not_intro running)

/-- A capture without a pulse has no data (rule R123). -/
theorem finalize_of_length_lt {c : Config} {es : List Edge} (h : es.length < 2) : finalize c es = .noData := if_pos h

/-- With no gap among the pulses `finalize()` gives no SUCCESS (rules R123, R132): the last entry is entry 0 or a pulse. -/
theorem finalize_of_no_gap {c : Config} {es : List Edge} (noGap : ∀ e ∈ pulsesOf es, isGap c.rom e.dur = false) :
    finalize c es = .noData ∨ finalize c es = .short := by
  rcases List.eq_nil_or_concat' es with rfl | ⟨es, last, rfl⟩
  · exact .inl rfl
  · rw [finalize_append]
    split_ifs with single timeout gap
    · exact .inl rfl
    · exact .inr rfl
    · have inPulses : last ∈ pulsesOf (es ++ [last]) := by simp [pulsesOf_append (Nat.pos_of_ne_zero single)]
      rw [noGap last inPulses] at gap
      cases gap
    · exact .inr rfl

/-! ### The shape of a capture (rules R129, R132) -/

theorem CaptureShape.port {s : State} (shape : CaptureShape s) (i : List HostInput) (r : Option Response) :
    CaptureShape { s with inputs := i, response := r } := { shape with }

theorem CaptureShape.beginCapture (s : State) : CaptureShape s.beginCapture where
  running _ := ⟨rfl, nofun⟩
  idle := nofun
  success := nofun

/-- A capture that ends without SUCCESS has the shape, whatever its entries. -/
theorem CaptureShape.endCapture (s : State) {r : CapResult} (hr : r ≠ .success) : CaptureShape (s.endCapture r) where
  running := nofun
  idle := nofun
  success h := absurd h hr

section

variable {s : State} (shape : CaptureShape s) (running : s.segState = .capturing)
include shape running

theorem CaptureShape.finalize_noData_or_short : finalize s.cfg s.ebuf = .noData ∨ finalize s.cfg s.ebuf = .short :=
  finalize_of_no_gap (shape.running running).2

/-- The new entry is entry 0, no pulse, or a pulse that is no gap. -/
theorem CaptureShape.pushEdge {e : Edge} (goesOn : ¬ (1 ≤ s.ebuf.length ∧ isGap s.cfg.rom e.dur = true)) :
    CaptureShape (s.pushEdge e) := by
  obtain ⟨noResult, noGap⟩ := shape.running running
  refine ⟨fun _ => ⟨noResult, fun x hx => ?_⟩, fun _ => noResult, fun h => nomatch noResult.symm.trans h⟩
  change x ∈ pulsesOf (s.ebuf ++ [e]) at hx
  cases hs : s.ebuf with
  | nil => simp [hs, pulsesOf] at hx
  | cons first mid =>
    have second : 1 ≤ s.ebuf.length := by simp [hs]
    rw [pulsesOf_append second] at hx
    rcases List.mem_append.mp hx with hx | hx
    · exact noGap x hx
    · rw [List.mem_singleton.mp hx]
      exact Bool.eq_false_iff.mpr fun gap => goesOn ⟨second, gap⟩

/-- The gap that ends the capture is its last entry, and what stands between entry 0 and it was no gap. -/
theorem CaptureShape.pushLast {e : Edge} (second : 1 ≤ s.ebuf.length) (gap : isGap s.cfg.rom e.dur = true) :
    CaptureShape ((s.pushEdge e).endCapture (if e.lvl = .timeout then .short else .success)) := by
  split_ifs with timeout
  · exact .endCapture _ nofun
  · obtain ⟨first, mid, hs⟩ := List.exists_cons_of_length_pos second
    have noGap := (shape.running running).2
    rw [State.pulses, hs] at noGap
    exact ⟨nofun, nofun, fun _ => ⟨first, mid, e, by simp [hs], by simp [Edge.endsWell, timeout, gap], noGap⟩⟩

end

/-- Every change keeps the shape of a capture. -/
theorem Change.keeps_captureShape {s u : State} (h : Change s u) (shape : CaptureShape s) : CaptureShape u := by
  cases h with
  | began => exact .beginCapture s
  | overflowed _ _ => exact .endCapture s nofun
  | pushed e running _ _ goesOn => exact shape.pushEdge running goesOn
  | pushedLast e running _ _ second gap => exact shape.pushLast running second gap
  | stopped running =>
    rcases shape.finalize_noData_or_short running with result | result <;> rw [result] <;> exact .endCapture s nofun
  | _ => exact { shape with }

/-! ### The statements of 40_segmentor -/

/-- Settles O19, change by change. -/
theorem stepKeepsCaptureShape : Obligations.StepKeepsCaptureShape :=
  fun _ _ => step_keeps (fun _ i r shape => shape.port i r) (fun c _ => CaptureShape.resetWith c) Change.keeps_captureShape

/-- Settles O24, branch by branch of the statement. -/
theorem capPushStoresEntry : Obligations.CapPushStoresEntry := by
  refine ⟨fun d => ⟨rfl, rfl, rfl⟩, fun s l din => ?_⟩
  dsimp only
  rw [← durationOf, ite_not]
  split_ifs with running full ends timeout
  · exact exec_capPush_of_full running full l din
  · obtain ⟨second, gap⟩ := ends
    rw [exec_capPush_of_room running full (afterPush_of_gap second gap), if_pos timeout, segReg_endCapture]; rfl
  · obtain ⟨second, gap⟩ := ends
    rw [exec_capPush_of_room running full (afterPush_of_gap second gap), if_neg timeout, segReg_endCapture]; rfl
  · rw [exec_capPush_of_room running full (afterPush_of_no_end ends), segReg_of_running (s := s.pushEdge _) running]; rfl
  · exact exec_capPush_of_stopped running l din

/-- Settles O25: the duration is read as it stands, and the default MAX_GAP is 10000. -/
theorem gapThresholdIsStrict : Obligations.GapThresholdIsStrict := by
  intro s l d hrom running second room fits
  have threshold : s.cfg.rom.maxGap.toNat = 10000 := by rw [hrom]; rfl
  refine ⟨_, exec_capPush_of_room running room rfl, by simp [durationOf_of_lt fits], ?_⟩
  rw [durationOf_of_lt fits, withResponse_segState]
  by_cases gap : s.cfg.rom.maxGap.toNat < d.toNat
  · rw [afterPush_of_gap second gap]
    exact iff_of_true rfl (by omega)
  · rw [afterPush_of_no_end (not_and_of_not_right _ gap), pushEdge_segState, running]
    exact iff_of_false nofun (by omega)

/-- Settles O26, by the result `finalize()` gives in each case. -/
theorem capStopFinalizes : Obligations.CapStopFinalizes := by
  refine ⟨rfl, fun s => ⟨exec_capStop_of_stopped,
    fun running few => exec_capStop_of_running running (finalize_of_length_lt few), fun es last running hs many => ?_⟩⟩
  have result := finalize_append s.cfg es last
  rw [← hs, if_neg (Nat.ne_of_gt many)] at result
  refine ⟨fun short => exec_capStop_of_running (r := .short) running ?_,
    fun level gap => exec_capStop_of_running (r := .success) running ?_⟩
  · simp only [result, isGap_iff]
    rcases short with timeout | noGap
    · exact if_pos timeout
    · rw [if_neg noGap.not_gt, ite_self]
  · rw [result, if_neg level, if_pos ((isGap_iff _ _).mpr gap)]

/-- Settles O27: the shape leaves `finalize()` no gap to end on. -/
theorem capStopNeverSucceeds : Obligations.CapStopNeverSucceeds :=
  fun _ shape running => ⟨_, exec_capStop_of_running running rfl, rfl, shape.finalize_noData_or_short running⟩

/-- Settles O23. -/
theorem capStartBeginsCapture : Obligations.CapStartBeginsCapture :=
  ⟨rfl, fun s => congrArg (respondOk · s.beginCapture) (segReg_beginCapture s)⟩

end Sys2Proof.Machine

/-! SUPPORT and PROOFS for the statements of 41_classifier: the comparator vector bit by bit, the windows of the default ROM, the
classifier's samples as entries of EBUF, and what CLASSIFY and DECODE answer inside and outside a capture. -/

namespace Sys2Proof.Machine

/-! ### The comparator outputs (rules R150, R153) -/

/-- The comparator outputs, bit 0 first (rule R150). -/
def cmpOutputs (r : Rom) (d : Duration) : List Bool :=
  [inWindow r r.unitAeha d, inWindow r r.shortAeha d, inWindow r r.unitNec d, inWindow r r.shortNec d,
    inWindow r r.repeatNec d, inWindow r r.unitSony d, inWindow r r.shortSony d, isGap r d]

theorem cmpv_eq_ofBoolListLE (r : Rom) (d : Duration) : cmpv r d = BitVec.ofBoolListLE (cmpOutputs r d) := by
  unfold cmpv cmpOutputs
  cases isGap r d <;> rfl

/-- The CMP value (rule R153): the vector in the low byte, zeros above it. -/
def cmpWord (r : Rom) (d : Duration) : Word := (0 : BitVec 24) ++ cmpv r d

/-- Every bit of the CMP value: the output of that number, and 0 where there is none. -/
theorem cmpWord_getLsbD (r : Rom) (d : Duration) (k : Nat) : (cmpWord r d).getLsbD k = (cmpOutputs r d).getD k false := by
  rw [← BitVec.getLsbD_ofBoolListLE, ← cmpv_eq_ofBoolListLE]
  refine BitVec.getLsbD_append.trans ?_
  split_ifs with low
  · rfl
  · exact BitVec.getLsbD_zero.trans (BitVec.getLsbD_of_ge (cmpv r d) k (Nat.not_lt.mp low)).symm

theorem exec_cmp (din : Word) (s : State) :
    exec (.cmp din) s = .next (s.withResponse .ok (cmpWord s.cfg.rom (durationOf s.cfg din))) := rfl

/-! ### The windows of the default ROM (rules R17, R150) -/

/-- TOL is 35/100: the bounds are `ceil(65n/100)` and `floor(135n/100)` (rule R17). -/
theorem inWindow_default (n d : Duration) : inWindow Rom.default n d =
    decide ((65 * n.toNat + 99) / 100 ≤ d.toNat ∧ d.toNat ≤ 135 * n.toNat / 100) := by
  obtain ⟨-, bounds, -⟩ := windowIsExact Rom.default n d (by decide)
  rw [Bool.eq_iff_iff, decide_eq_true_iff]
  exact bounds rfl rfl

section

variable (d : Duration)

theorem unitAeha_default : inWindow Rom.default Rom.default.unitAeha d = decide (277 ≤ d.toNat ∧ d.toNat ≤ 573) :=
  inWindow_default 425 d

theorem shortAeha_default : inWindow Rom.default Rom.default.shortAeha d = decide (92 ≤ d.toNat ∧ d.toNat ≤ 190) :=
  inWindow_default 141 d

theorem unitNec_default : inWindow Rom.default Rom.default.unitNec d = decide (366 ≤ d.toNat ∧ d.toNat ≤ 758) :=
  inWindow_default 562 d

theorem shortNec_default : inWindow Rom.default Rom.default.shortNec d = decide (183 ≤ d.toNat ∧ d.toNat ≤ 379) :=
  inWindow_default 281 d

theorem repeatNec_default : inWindow Rom.default Rom.default.repeatNec d = decide (1463 ≤ d.toNat ∧ d.toNat ≤ 3037) :=
  inWindow_default 2250 d

theorem unitSony_default : inWindow Rom.default Rom.default.unitSony d = decide (390 ≤ d.toNat ∧ d.toNat ≤ 810) :=
  inWindow_default 600 d

theorem shortSony_default : inWindow Rom.default Rom.default.shortSony d = decide (195 ≤ d.toNat ∧ d.toNat ≤ 405) :=
  inWindow_default 300 d

theorem isGap_default : isGap Rom.default d = decide (10001 ≤ d.toNat) := rfl

end

/-- No protocol has a data window that reaches above SONY's unit window, which ends at 810 (rules R159, R183). -/
theorem bitOf_default_eq_none {d : Duration} (h : 810 < d.toNat) (p : Protocol) : bitOf Rom.default p d = none := by
  have outside {n : Duration} (hn : n.toNat ≤ 600) : ¬ inWindow Rom.default n d = true := by
    rw [inWindow_default, decide_eq_true_iff]; omega
  have long : (Rom.default.long p).toNat ≤ 600 := by cases p <;> decide
  have short : (Rom.default.short p).toNat ≤ 600 := by cases p <;> decide
  exact (if_neg (outside long)).trans (if_neg (outside short))

/-! ### The samples as entries of EBUF (rules R154, R155) -/

theorem sample_inWindow_iff (s : State) (n : Duration) (j : Nat) :
    sampleInWindow s.cfg.rom n (sample s.pulses j) = true ↔
      ∃ e, s.ebuf[j + 1]? = some e ∧ e.lvl ≠ .timeout ∧ inWindow s.cfg.rom n e.dur = true := by
  simp only [sampleInWindow_iff, sample_eq_some, pulses_getElem?]
  constructor
  · rintro ⟨_, ⟨e, he, level, rfl⟩, window⟩; exact ⟨e, he, level, window⟩
  · rintro ⟨e, he, level, window⟩; exact ⟨_, ⟨e, he, level, rfl⟩, window⟩

theorem unitSample_inWindow_iff (s : State) (n : Duration) :
    sampleInWindow s.cfg.rom n (unitSample s.pulses) = true ↔
      ∃ e, s.ebuf[2]? = some e ∧ e.lvl ≠ .timeout ∧ inWindow s.cfg.rom n e.dur = true := sample_inWindow_iff s n 1

theorem repeatSample_inWindow_iff (s : State) (n : Duration) :
    sampleInWindow s.cfg.rom n (repeatSample s.pulses) = true ↔
      ∃ e, s.ebuf[1]? = some e ∧ e.lvl ≠ .timeout ∧ inWindow s.cfg.rom n e.dur = true := sample_inWindow_iff s n 0

/-! ### What CLASSIFY and DECODE answer (rules R157, R180) -/

theorem exec_classify_of_running {s : State} (running : s.segState = .capturing) :
    exec .classify s = .next (s.withResponse .busy 0) :=
  if_pos running

theorem exec_classify_of_stopped {s : State} {tag : Tag} {rep : Bool} (stopped : s.segState ≠ .capturing)
    (result : classifyPulses s.cfg.rom s.pulses = (tag, rep)) :
    exec .classify s =
      .next ((s.setClass tag rep).withResponse .ok (BitVec.ofNat 32 ((tagCode tag).toNat + 4 * rep.toNat + 8))) := by
  have value : (s.setClass tag rep).clsReg = BitVec.ofNat 32 ((tagCode tag).toNat + 4 * rep.toNat + 8) := clsReg_eq _
  simp only [exec, execClassify, if_neg stopped, result, respondOk_eq, value]

theorem exec_decode_of_running {s : State} (running : s.segState = .capturing) (tag : Tag) :
    exec (.decode tag) s = .next (s.withResponse .busy 0) :=
  if_pos running

/-- Outside a capture DECODE of a protocol's tag commits that protocol's Frame and responds the DEC value. -/
theorem exec_decode_of_stopped {s : State} (stopped : s.segState ≠ .capturing) (p : Protocol) :
    exec (.decode p.tag) s = .next ((s.decodeAs p).withResponse .ok (s.decodeAs p).decReg) := by
  simp only [exec, execDecode, if_neg stopped, protocol?_tag, respondOk_eq]

/-- A first mark in the repeat window is the NEC repeat Frame, whatever follows it (rule R182). -/
theorem decodeAs_nec_of_repeat {s : State}
    (mark : sampleInWindow s.cfg.rom s.cfg.rom.repeatNec (repeatSample s.pulses) = true) :
    s.decodeAs .nec = s.commitFrame .repeatCode .nec .repeatCode [] :=
  if_pos mark

/-! ### The priority encoder (rules R156, R158) -/

/-- The repeat test comes right after AEHA's unit test. -/
theorem classifyPulses_of_repeat {r : Rom} {pulses : List Edge}
    (noAeha : ¬ sampleInWindow r r.unitAeha (unitSample pulses) = true)
    (mark : sampleInWindow r r.repeatNec (repeatSample pulses) = true) : classifyPulses r pulses = (.nec, true) :=
  (if_neg noAeha).trans (if_pos mark)

/-- The tag the unit sample alone gives under the default ROM (rule R158). -/
def defaultUnitTag (u : Duration) : Tag :=
  if 277 ≤ u.toNat ∧ u.toNat ≤ 573 then .aeha
  else if 574 ≤ u.toNat ∧ u.toNat ≤ 758 then .nec
  else if 759 ≤ u.toNat ∧ u.toNat ≤ 810 then .sony
  else .unknown

/-- An earlier slot takes the lower part of each later window, so what is left of NEC's starts at 574 and of SONY's at 759. -/
theorem classifyPulses_default {r : Rom} {pulses : List Edge} {u : Duration} (hrom : r = Rom.default)
    (unit : unitSample pulses = some u) (noRepeat : ¬ sampleInWindow r r.repeatNec (repeatSample pulses) = true) :
    classifyPulses r pulses = (defaultUnitTag u, false) := by
  subst hrom
  rw [classifyPulses, if_neg noRepeat, unit]
  simp only [sampleInWindow, unitAeha_default, unitNec_default, unitSony_default, decide_eq_true_iff, defaultUnitTag]
  by_cases aeha : 277 ≤ u.toNat ∧ u.toNat ≤ 573
  · rw [if_pos aeha, if_pos aeha]
  rw [if_neg aeha, if_neg aeha]
  have necLeft : (366 ≤ u.toNat ∧ u.toNat ≤ 758) ↔ (574 ≤ u.toNat ∧ u.toNat ≤ 758) := by omega
  by_cases nec : 574 ≤ u.toNat ∧ u.toNat ≤ 758
  · rw [if_pos (necLeft.mpr nec), if_pos nec]
  rw [if_neg (necLeft.not.mpr nec), if_neg nec]
  have sonyLeft : (390 ≤ u.toNat ∧ u.toNat ≤ 810) ↔ (759 ≤ u.toNat ∧ u.toNat ≤ 810) := by omega
  by_cases sony : 759 ≤ u.toNat ∧ u.toNat ≤ 810
  · rw [if_pos (sonyLeft.mpr sony), if_pos sony]
  rw [if_neg (sonyLeft.not.mpr sony), if_neg sony]

/-! ### The statements of 41_classifier -/

/-- Settles O31: the response is the vector, and each default window has its bounds. -/
theorem cmpShowsEveryWindow : Obligations.CmpShowsEveryWindow := by
  refine ⟨fun _ => rfl, fun s din => ?_⟩
  dsimp only
  rw [← durationOf]
  refine ⟨cmpWord s.cfg.rom (durationOf s.cfg din), exec_cmp din s, ?_⟩
  simp only [cmpWord_getLsbD]
  refine ⟨rfl, rfl, rfl, rfl, rfl, rfl, rfl, rfl, fun _ h => List.getD_eq_default _ _ h, fun hrom => ?_⟩
  have top : (durationOf s.cfg din).toNat ≤ 2 ^ s.cfg.durW - 1 := Nat.le_sub_one_of_lt (durationOf_lt s.cfg din)
  simp [cmpOutputs, hrom, unitAeha_default, shortAeha_default, unitNec_default, shortNec_default, repeatNec_default,
    unitSony_default, shortSony_default, isGap_default, top]

/-- Settles O32, slot by slot of the priority encoder. -/
theorem classifyByPriority : Obligations.ClassifyByPriority := by
  refine ⟨rfl, fun s => ⟨exec_classify_of_running, fun stopped => ?_⟩⟩
  simp only [← unitSample_inWindow_iff, ← repeatSample_inWindow_iff]
  refine ⟨fun aeha => ?_, fun noAeha mark => ?_, fun noAeha noRepeat nec => ?_, fun noAeha noRepeat noNec sony => ?_,
    fun noAeha noRepeat noNec noSony => ?_⟩
  · exact exec_classify_of_stopped (rep := false) stopped (if_pos aeha)
  · exact exec_classify_of_stopped stopped (classifyPulses_of_repeat noAeha mark)
  · exact exec_classify_of_stopped (rep := false) stopped ((if_neg noAeha).trans ((if_neg noRepeat).trans (if_pos nec)))
  · exact exec_classify_of_stopped (rep := false) stopped
      ((if_neg noAeha).trans ((if_neg noRepeat).trans ((if_neg noNec).trans (if_pos sony))))
  · exact exec_classify_of_stopped (rep := false) stopped
      ((if_neg noAeha).trans ((if_neg noRepeat).trans ((if_neg noNec).trans (if_neg noSony))))

/-- Settles O33: entry 2 is the unit sample, and entry 1 fails the repeat test. -/
theorem effectiveUnitRanges : Obligations.EffectiveUnitRanges := by
  intro s e0 q u rest hrom stopped hs level outside
  have unit : unitSample s.pulses = some u.dur :=
    sample_eq_some.mpr ⟨u, by simp [pulses_getElem?, hs], level, rfl⟩
  have noRepeat : ¬ sampleInWindow s.cfg.rom s.cfg.rom.repeatNec (repeatSample s.pulses) = true := by
    rw [repeatSample_inWindow_iff]
    simp [hs, hrom, repeatNec_default, outside]
  exact ⟨_, exec_classify_of_stopped stopped (classifyPulses_default hrom unit noRepeat), rfl, rfl, rfl⟩

/-- Settles O34: no unit sample is left for AEHA, so the mark's repeat test decides, and no data window holds the mark. -/
theorem repeatCodeIsNeverData : Obligations.RepeatCodeIsNeverData := by
  intro s e0 q rest hrom stopped hs level low high noSpace
  have mark : sampleInWindow s.cfg.rom s.cfg.rom.repeatNec (repeatSample s.pulses) = true := by
    refine (repeatSample_inWindow_iff s _).mpr ⟨q, by simp [hs], level, ?_⟩
    rw [hrom, repeatNec_default]
    exact decide_eq_true ⟨low, high⟩
  have noAeha : ¬ sampleInWindow s.cfg.rom s.cfg.rom.unitAeha (unitSample s.pulses) = true := by
    rw [unitSample_inWindow_iff, hrom]
    rintro ⟨u, hu, hlevel, window⟩
    rw [unitAeha_default, decide_eq_true_iff] at window
    rw [hs, List.getElem?_cons_succ, List.getElem?_cons_succ, ← List.head?_eq_getElem?] at hu
    rcases noSpace u hu with timeout | gap
    · exact hlevel timeout
    · omega
  refine ⟨⟨_, exec_classify_of_stopped stopped (classifyPulses_of_repeat noAeha mark), rfl, rfl⟩, ?_, ?_⟩
  · refine ⟨_, exec_decode_of_stopped stopped .nec, ?_⟩
    rw [decodeAs_nec_of_repeat mark]
    exact ⟨rfl, rfl, rfl⟩
  · rw [hrom]
    exact bitOf_default_eq_none (by omega)

/-- Settles O35. -/
theorem busyWhileCapturing : Obligations.BusyWhileCapturing :=
  fun _ running => ⟨exec_classify_of_running running, exec_decode_of_running running⟩

end Sys2Proof.Machine

/-! SUPPORT and PROOFS for the statements of 42_decoder: the extraction pair by pair and how it ends, the Frame DECODE commits, and
an encoded train pushed as a capture. -/

namespace Sys2Proof.Machine

/-! ### Tags, words and responses of DECODE (rules R37, R54, R180) -/

/-- A tag is UNKNOWN or names a protocol (rule R37). -/
theorem tag_eq_unknown_or_protocol (g : Tag) : g = .unknown ∨ ∃ p : Protocol, g = p.tag := by
  cases g with
  | unknown => exact .inl rfl
  | aeha => exact .inr ⟨.aeha, rfl⟩
  | nec => exact .inr ⟨.nec, rfl⟩
  | sony => exact .inr ⟨.sony, rfl⟩

theorem exec_decode_unknown_of_stopped {s : State} (stopped : s.segState ≠ .capturing) :
    exec (.decode .unknown) s = .next ((s.commitFrame .pass .unknown .none []).withResponse .ok 3) := by
  have value : (s.commitFrame .pass .unknown .none []).decReg = 3 := decReg_commitFrame ..
  rw [← value]
  exact if_neg stopped

/-- The Frame a protocol's decoding commits is the next state, and its three fields are the response. -/
theorem exec_decode_of_commit {s : State} {p : Protocol} {d : DStat} {g : Tag} {k : FKind} {bits : List Bool}
    (stopped : s.segState ≠ .capturing) (commits : s.decodeAs p = s.commitFrame d g k bits) :
    exec (.decode p.tag) s = .next ((s.commitFrame d g k bits).withResponse .ok
      (BitVec.ofNat 32 ((dstatCode d).toNat + 16 * (tagCode g).toNat + 64 * (fkindCode k).toNat))) := by
  rw [exec_decode_of_stopped stopped, commits, decReg_commitFrame]

/-! ### The repeat code (rule R182) -/

theorem repeatSample_inWindow_iff_head {r : Rom} {n : Duration} {pulses : List Edge} :
    sampleInWindow r n (repeatSample pulses) = true ↔
      ∃ q rest, pulses = q :: rest ∧ q.lvl ≠ .timeout ∧ inWindow r n q.dur = true := by
  simp only [sampleInWindow_iff, repeatSample, sample_eq_some]
  cases pulses with
  | nil => simp
  | cons q rest => simp

theorem isRepeat_iff {r : Rom} {p : Protocol} {pulses : List Edge} : isRepeat r p pulses = true ↔
    p = .nec ∧ ∃ q rest, pulses = q :: rest ∧ q.lvl ≠ .timeout ∧ inWindow r r.repeatNec q.dur = true := by
  rw [isRepeat, Bool.and_eq_true, decide_eq_true_iff, repeatSample_inWindow_iff_head]

/-! ### Mark to bit (rules R183, R184) -/

theorem bitOf_eq_ite (r : Rom) (p : Protocol) (d : Duration) : bitOf r p d =
    if inWindow r (r.unit p) d then some true else if inWindow r (r.short p) d then some false else none := rfl

/-! ### Extraction pair by pair (rules R185 to R194) -/

section

variable {c : Config} {p : Protocol} {bits : List Bool}

/-- A good pair adds its bit, and the extraction goes on at the next mark. -/
theorem extractFrom_pair {mk sp : Edge} {b : Bool} {es : List Edge} (mark : mk.plain c.rom)
    (bit : bitOf c.rom p mk.dur = some b) (room : bits.length ≠ c.fbufDepth) (space : sp.plain c.rom) :
    extractFrom c p bits (mk :: sp :: es) = extractFrom c p (bits ++ [b]) es := by
  obtain ⟨markLevel, markNoGap⟩ := mark
  obtain ⟨spaceLevel, spaceNoGap⟩ := space
  simp [extractFrom, markLevel, markNoGap, bit, room, spaceLevel, spaceNoGap]

/-- Good pairs that fit add their bits, and the rest decides how the extraction ends. -/
theorem extractFrom_goodPairs {more : List Bool} {good : List Edge} (pairs : GoodPairs c.rom p more good) (rest : List Edge)
    (fits : (bits ++ more).length ≤ c.fbufDepth) :
    extractFrom c p bits (good ++ rest) = extractFrom c p (bits ++ more) rest := by
  induction more generalizing bits good with
  | nil =>
    cases good with
    | nil => simp
    | cons => exact pairs.elim
  | cons b more ih =>
    match good, pairs with
    | mk :: sp :: good, ⟨mark, bit, space, pairs⟩ =>
      have room : bits.length ≠ c.fbufDepth := by simp at fits; omega
      rw [List.append_cons] at fits ⊢
      exact (extractFrom_pair mark bit room space).trans (ih pairs fits)

/-- Each way a Frame ends is a branch of the extraction. -/
theorem extractFrom_frameEnd {rest : List Edge} {d : DStat} {frame : List Bool} (h : FrameEnd c p bits rest d frame) :
    extractFrom c p bits rest = (d, frame) := by
  cases h with
  | exhausted found => exact if_neg found
  | noPulse empty => exact if_pos empty
  | gapMark mk rest level gap found => simp [extractFrom, level, gap, endOfFrame, found]
  | gapFirst mk rest level gap empty => simp [extractFrom, level, gap, endOfFrame, empty]
  | timeoutMark mk rest timeout => simp [extractFrom, timeout]
  | noMatch mk rest plain bit => simp [extractFrom, plain.1, plain.2, bit]
  | full mk rest b plain bit full => simp [extractFrom, plain.1, plain.2, bit, full]
  | lastMark mk b plain bit room => simp [extractFrom, plain.1, plain.2, bit, room, endOfFrame]
  | timeoutSpace mk sp rest b plain bit room timeout => simp [extractFrom, plain.1, plain.2, bit, room, timeout]
  | gapSpace mk sp rest b plain bit room level gap =>
    simp [extractFrom, plain.1, plain.2, bit, room, level, gap, endOfFrame]

end

/-- The stream from a mark position on, with `bits` found so far, splits into good pairs and a rest that ends the Frame. -/
def HasFrameEnd (c : Config) (p : Protocol) (bits : List Bool) (es : List Edge) : Prop :=
  ∃ good rest more frame d, es = good ++ rest ∧ GoodPairs c.rom p more good ∧ (bits ++ more).length ≤ c.fbufDepth ∧
    FrameEnd c p (bits ++ more) rest d frame

section

variable {c : Config} {p : Protocol} {bits : List Bool}

theorem HasFrameEnd.here {es : List Edge} {frame : List Bool} {d : DStat} (fits : bits.length ≤ c.fbufDepth)
    (h : FrameEnd c p bits es d frame) : HasFrameEnd c p bits es :=
  ⟨[], es, [], frame, d, rfl, trivial, by simpa using fits, by simpa using h⟩

theorem HasFrameEnd.pair {mk sp : Edge} {b : Bool} {es : List Edge} (mark : mk.plain c.rom)
    (bit : bitOf c.rom p mk.dur = some b) (space : sp.plain c.rom) (h : HasFrameEnd c p (bits ++ [b]) es) :
    HasFrameEnd c p bits (mk :: sp :: es) := by
  obtain ⟨good, rest, more, frame, d, rfl, pairs, fits, ends⟩ := h
  rw [← List.append_cons] at fits ends
  exact ⟨mk :: sp :: good, rest, b :: more, frame, d, rfl, ⟨mark, bit, space, pairs⟩, fits, ends⟩

/-- By induction along the extraction, whose every branch but the good pair is an end of the Frame. -/
theorem hasFrameEnd (es : List Edge) (fits : bits.length ≤ c.fbufDepth) : HasFrameEnd c p bits es := by
  induction bits, es using extractFrom.induct c p with
  | case1 bits =>
    by_cases empty : bits = []
    · exact .here fits (.noPulse empty)
    · exact .here fits (.exhausted empty)
  | case2 bits mk rest timeout => exact .here fits (.timeoutMark mk rest timeout)
  | case3 bits mk rest level gap =>
    by_cases empty : bits = []
    · exact .here fits (.gapFirst mk rest level gap empty)
    · exact .here fits (.gapMark mk rest level gap empty)
  | case4 bits mk rest level noGap bit => exact .here fits (.noMatch mk rest ⟨level, Bool.eq_false_iff.mpr noGap⟩ bit)
  | case5 bits mk rest level noGap b bit full =>
    exact .here fits (.full mk rest b ⟨level, Bool.eq_false_iff.mpr noGap⟩ bit full)
  | case6 bits mk level noGap b bit room => exact .here fits (.lastMark mk b ⟨level, Bool.eq_false_iff.mpr noGap⟩ bit room)
  | case7 bits mk level noGap b bit room sp rest timeout =>
    exact .here fits (.timeoutSpace mk sp rest b ⟨level, Bool.eq_false_iff.mpr noGap⟩ bit room timeout)
  | case8 bits mk level noGap b bit room sp rest spaceLevel gap =>
    exact .here fits (.gapSpace mk sp rest b ⟨level, Bool.eq_false_iff.mpr noGap⟩ bit room spaceLevel gap)
  | case9 bits mk level noGap b bit room sp rest spaceLevel spaceNoGap ih =>
    refine .pair ⟨level, Bool.eq_false_iff.mpr noGap⟩ bit ⟨spaceLevel, Bool.eq_false_iff.mpr spaceNoGap⟩ (ih ?_)
    simp; omega

end

/-- The extraction reads FBUF_DEPTH and ROM, and nothing else of the configuration (rule R196). -/
theorem extractFrom_congr {c c' : Config} (depth : c.fbufDepth = c'.fbufDepth) (rom : c.rom = c'.rom) (p : Protocol)
    (bits : List Bool) (es : List Edge) : extractFrom c p bits es = extractFrom c' p bits es := by
  obtain ⟨w, e, depth', rom'⟩ := c
  cases depth
  cases rom
  induction bits, es using extractFrom.induct c' p with
  | case9 bits mk level noGap b bit room sp rest spaceLevel spaceNoGap ih =>
    simp [extractFrom, level, noGap, bit, room, spaceLevel, spaceNoGap, ih]
  | _ => simp [extractFrom, *]

/-! ### The Frame DECODE commits (rules R180, R191, R192) -/

theorem not_data_of_error : ∀ d ∈ [DStat.errNoMatch, .errEmpty, .errTimeout, .errFull], d ≠ .data ∧ d ≠ .pass := by decide

theorem extract_cases (c : Config) (p : Protocol) (pulses : List Edge) :
    (∃ bits, bits ≠ [] ∧ bits.length ≤ c.fbufDepth ∧ extract c p pulses = (.data, bits)) ∨
      ∃ d ∈ [DStat.errNoMatch, .errEmpty, .errTimeout, .errFull], extract c p pulses = (d, []) := by
  rcases extractFrom_cases c p [] pulses (Nat.zero_le _) with ⟨data, found, fits⟩ | ⟨error, empty⟩
  · exact .inl ⟨_, found, fits, Prod.ext data rfl⟩
  · exact .inr ⟨_, error, Prod.ext rfl empty⟩

/-- Without the repeat code the extraction decides: only DATA has a tag and a kind. -/
theorem decodeAs_of_extract {s : State} {p : Protocol} {d : DStat} {frame : List Bool}
    (noRepeat : isRepeat s.cfg.rom p s.pulses = false) (result : extract s.cfg p s.pulses = (d, frame)) :
    s.decodeAs p =
      s.commitFrame d (if d = .data then p.tag else .unknown) (if d = .data then .data else .none) frame := by
  rw [State.decodeAs, if_neg (Bool.eq_false_iff.mp noRepeat)]
  rcases extract_cases s.cfg p s.pulses with ⟨bits, -, -, e⟩ | ⟨d', error, e⟩ <;> cases e.symm.trans result <;> rw [result]
  · rfl
  · simp only [if_neg (not_data_of_error d error).1]

/-- The three forms of the Frame that DECODE of a protocol leaves. -/
theorem decodeAs_cases (s : State) (p : Protocol) :
    (∃ bits, bits ≠ [] ∧ bits.length ≤ s.cfg.fbufDepth ∧ s.decodeAs p = s.commitFrame .data p.tag .data bits) ∨
    (p = .nec ∧ s.decodeAs p = s.commitFrame .repeatCode .nec .repeatCode []) ∨
    ∃ d ∈ [DStat.errNoMatch, .errEmpty, .errTimeout, .errFull], s.decodeAs p = s.commitFrame d .unknown .none [] := by
  cases rep : isRepeat s.cfg.rom p s.pulses with
  | true => exact .inr (.inl ⟨(isRepeat_iff.mp rep).1, if_pos rep⟩)
  | false =>
    rcases extract_cases s.cfg p s.pulses with ⟨bits, found, fits, result⟩ | ⟨d, error, result⟩
    · exact .inl ⟨bits, found, fits, decodeAs_of_extract rep result⟩
    · refine .inr (.inr ⟨d, error, ?_⟩)
      rw [decodeAs_of_extract rep result, if_neg (not_data_of_error d error).1, if_neg (not_data_of_error d error).1]

/-- DECODE commits the same Frame in two states that agree on EBUF, FBUF_DEPTH and ROM (rule R196). -/
theorem decodeAs_congr {s s' : State} (edges : s.ebuf = s'.ebuf) (depth : s.cfg.fbufDepth = s'.cfg.fbufDepth)
    (rom : s.cfg.rom = s'.cfg.rom) (p : Protocol) :
    ∃ d g k bits, s.decodeAs p = s.commitFrame d g k bits ∧ s'.decodeAs p = s'.commitFrame d g k bits := by
  have pulses : s.pulses = s'.pulses := congrArg pulsesOf edges
  cases rep : isRepeat s.cfg.rom p s.pulses with
  | true => exact ⟨_, _, _, _, if_pos rep, if_pos (by rwa [← rom, ← pulses])⟩
  | false =>
    have result : extract s'.cfg p s'.pulses = extract s.cfg p s.pulses := by
      rw [← pulses]
      exact (extractFrom_congr depth rom p [] s.pulses).symm
    exact ⟨_, _, _, _, decodeAs_of_extract rep rfl, decodeAs_of_extract (by rwa [← rom, ← pulses]) result⟩

/-! ### A train pushed as a capture (rules R124, R126, R131, R195) -/

/-- The entries a push of each duration with its level stores. -/
def edgesOf (levels : List Level) (durations : List Duration) : List Edge :=
  List.zipWith (fun l d => { dur := d, lvl := l }) levels durations

theorem execAll_append {is : List Instr} {s t : State} (h : execAll is s = .next t) (js : List Instr) :
    execAll (is ++ js) s = execAll js t := by
  induction is generalizing s with
  | nil => cases h; rfl
  | cons i is ih =>
    cases hi : exec i s with
    | next u =>
      rw [execAll_cons hi] at h
      rw [List.cons_append, execAll_cons hi, ih h]
    | fault f => cases f
    | refused r => simp [execAll, hi] at h

/-- CAP_START and the push of any entry 0 leave a running capture of one entry. -/
theorem execAll_capStart_capPush {s : State} (room : s.cfg.ebufDepth ≠ 0) (l : Level) (din : Word) :
    ∃ u e, execAll [.capStart, .capPush l din] s = .next u ∧ u.segState = .capturing ∧ u.cfg = s.cfg ∧ u.ebuf = [e] := by
  have started : exec .capStart s = .next (s.beginCapture.withResponse .ok s.beginCapture.segReg) := rfl
  have pushed := exec_capPush_of_room (s := s.beginCapture.withResponse .ok s.beginCapture.segReg) (l := l) (din := din)
    rfl (Ne.symm room) (afterPush_of_no_end (by simp))
  exact ⟨_, _, (execAll_cons started _).trans (execAll_cons pushed []), rfl, rfl, rfl⟩

/-- In a running capture with room for all of them, pulses that are no gap are stored as they stand. -/
theorem execAll_capPush {s : State} {levels : List Level} {durations : List Duration} (running : s.segState = .capturing)
    (room : s.ebuf.length + durations.length ≤ s.cfg.ebufDepth)
    (plain : ∀ d ∈ durations, d.toNat < 2 ^ s.cfg.durW ∧ isGap s.cfg.rom d = false) :
    ∃ t, execAll (List.zipWith .capPush levels durations) s = .next t ∧ t.segState = .capturing ∧ t.cfg = s.cfg ∧
      t.ebuf = s.ebuf ++ edgesOf levels durations := by
  induction durations generalizing s levels with
  | nil => exact ⟨s, by simp [edgesOf, execAll, running]⟩
  | cons d durations ih =>
    cases levels with
    | nil => exact ⟨s, by simp [edgesOf, execAll, running]⟩
    | cons l levels =>
      obtain ⟨⟨width, noGap⟩, plain⟩ := List.forall_mem_cons.mp plain
      rw [List.length_cons] at room
      have goesOn : ¬ (1 ≤ s.ebuf.length ∧ s.cfg.rom.maxGap.toNat < d.toNat) := by simp [← isGap_iff, noGap]
      obtain ⟨v, pushed⟩ : ∃ v, exec (.capPush l d) s = .next ((s.pushEdge { dur := d, lvl := l }).withResponse .ok v) :=
        ⟨_, exec_capPush_of_room running (by omega) (by rw [durationOf_of_lt width]; exact afterPush_of_no_end goesOn)⟩
      obtain ⟨t, rest, running, cfg, stored⟩ := ih (s := (s.pushEdge { dur := d, lvl := l }).withResponse .ok v)
        (levels := levels) running (by simp; omega) plain
      exact ⟨t, (execAll_cons pushed _).trans rest, running, cfg, stored.trans (List.append_assoc s.ebuf _ _)⟩

/-- A capture of any entry 0 and then pulses that are no gap ends with CAP_STOP, and its pulse stream is what was pushed. -/
theorem execAll_capture {s : State} (l0 : Level) (d0 : Word) (levels : List Level) {durations : List Duration}
    (room : durations.length + 1 ≤ s.cfg.ebufDepth)
    (plain : ∀ d ∈ durations, d.toNat < 2 ^ s.cfg.durW ∧ isGap s.cfg.rom d = false) :
    ∃ t, execAll ([.capStart, .capPush l0 d0] ++ List.zipWith .capPush levels durations ++ [.capStop]) s = .next t ∧
      t.segState ≠ .capturing ∧ t.cfg = s.cfg ∧ t.pulses = edgesOf levels durations := by
  obtain ⟨u, e, started, running, cfg, first⟩ := execAll_capStart_capPush (s := s) (by omega) l0 d0
  obtain ⟨t, pushed, running, cfg', stored⟩ := execAll_capPush (levels := levels) (durations := durations) running
    (by simp [first, cfg]; omega) (cfg ▸ plain)
  have beforeStop : execAll ([.capStart, .capPush l0 d0] ++ List.zipWith .capPush levels durations ++ [.capStop]) s =
      execAll [.capStop] t := by
    rw [List.append_assoc, execAll_append started, execAll_append pushed]
  exact ⟨_, beforeStop.trans (execAll_cons (exec_capStop_of_running running rfl) []), nofun, cfg'.trans cfg,
    congrArg pulsesOf (stored.trans (congrArg (· ++ _) first))⟩

/-! ### Decoding an encoded train (rules R195, R210, R217) -/

theorem exec_encode_of_bits {s : State} (found : s.fbuf ≠ []) (p : Protocol) :
    ∃ v, exec (.encode p.tag) s = .next ((s.writeTrain .ok (trainOf s.cfg.rom p s.fbuf)).withResponse .ok v) := by
  have counted : s.flen ≠ 0 := mt List.length_eq_zero_iff.mp found
  simp only [exec, execEncode, protocol?_tag, if_neg counted]
  exact ⟨_, rfl⟩

/-- No duration of the default ROM is above its MAX_GAP, so an encoded train has no gap. -/
theorem isGap_default_of_mem_trainOf {p : Protocol} {bits : List Bool} {d : Duration} (h : d ∈ trainOf Rom.default p bits) :
    isGap Rom.default d = false := by
  have known : ∀ d ∈ Rom.default.durations, d.toNat ≤ 10000 := by simp [Rom.durations, Rom.default]
  rw [isGap_default, decide_eq_false_iff_not]
  exact Nat.not_lt.mpr (known d (mem_durations_of_mem_trainOf h))

/-- The mark the encoder ROM gives a bit lies in that bit's window, and outside the long one for 0. -/
theorem bitOf_enc_default (p : Protocol) (b : Bool) : bitOf Rom.default p (Rom.default.enc p b).1 = some b := by
  cases p <;> cases b <;> decide

theorem goodPairs_trainOf {p : Protocol} {bits : List Bool} {levels : List Level}
    (same : levels.length = (trainOf Rom.default p bits).length) (noTimeout : .timeout ∉ levels) :
    GoodPairs Rom.default p bits (edgesOf levels (trainOf Rom.default p bits)) := by
  induction bits generalizing levels with
  | nil => simp [trainOf, edgesOf, GoodPairs]
  | cons b bits ih =>
    match levels, same with
    | mark :: space :: levels, same =>
      simp only [List.mem_cons, not_or] at noTimeout
      obtain ⟨markLevel, spaceLevel, noTimeout⟩ := noTimeout
      have markNoGap : isGap Rom.default (Rom.default.enc p b).1 = false :=
        isGap_default_of_mem_trainOf (p := p) (bits := b :: bits) (.head _)
      have spaceNoGap : isGap Rom.default (Rom.default.enc p b).2 = false :=
        isGap_default_of_mem_trainOf (p := p) (bits := b :: bits) (.tail _ (.head _))
      refine ⟨⟨Ne.symm markLevel, markNoGap⟩, bitOf_enc_default p b, ⟨Ne.symm spaceLevel, spaceNoGap⟩, ih ?_ noTimeout⟩
      simpa [trainOf] using same

/-- No mark that gives a bit lies in the repeat window of the default ROM (rule R159). -/
theorem isRepeat_of_goodPairs_default {p : Protocol} {bits : List Bool} {es : List Edge}
    (pairs : GoodPairs Rom.default p bits es) : isRepeat Rom.default p es = false := by
  refine Bool.eq_false_iff.mpr fun rep => ?_
  obtain ⟨-, q, rest, rfl, -, window⟩ := isRepeat_iff.mp rep
  rw [repeatNec_default, decide_eq_true_iff] at window
  have noBit := bitOf_default_eq_none (d := q.dur) (by omega) p
  match bits, rest, pairs with
  | b :: bits, sp :: rest, ⟨_, bit, _⟩ => cases noBit.symm.trans bit

/-! ### The statements of 42_decoder -/

/-- Settles O36: no protocol is named, so nothing is read from EBUF. -/
theorem decodeUnknownPassesThrough : Obligations.DecodeUnknownPassesThrough := fun _ => exec_decode_unknown_of_stopped

/-- Settles O37: entry 1 of EBUF is the repeat sample. -/
theorem decodeNecRepeat : Obligations.DecodeNecRepeat := by
  refine ⟨fun s e0 q rest stopped hs level window => ?_, fun r p pulses => isRepeat_iff⟩
  have mark := (repeatSample_inWindow_iff s _).mpr ⟨q, by simp [hs], level, window⟩
  exact exec_decode_of_commit (p := .nec) stopped (decodeAs_nec_of_repeat mark)

/-- Settles O38: under the default ROM a long window takes the part of the short one that it overlaps. -/
theorem markToBitTable : Obligations.MarkToBitTable := by
  refine ⟨fun r p d => ?_, fun d => ?_⟩
  · rw [bitOf_eq_ite]
    cases inWindow r (r.unit p) d <;> cases inWindow r (r.short p) d <;> decide
  · simp only [bitOf_eq_ite, Rom.unit, Rom.short, unitAeha_default, shortAeha_default, unitNec_default, shortNec_default,
      unitSony_default, shortSony_default, decide_eq_true_iff]
    exact ⟨trivial, ite_congr rfl (fun _ => rfl) fun aboveLong => if_congr (by omega) rfl rfl,
      ite_congr rfl (fun _ => rfl) fun aboveLong => if_congr (by omega) rfl rfl⟩

/-- Settles O39: the good pairs give their bits, and the rest ends the extraction with the outcome and the Frame. -/
theorem decodeStopsAtFirstFrameEnd : Obligations.DecodeStopsAtFirstFrameEnd := by
  intro s p good rest bits frame d stopped noRepeat stream pairs fits ends
  have result : extract s.cfg p s.pulses = (d, frame) := by
    rw [extract, stream, extractFrom_goodPairs pairs rest (by simpa using fits)]
    exact extractFrom_frameEnd ends
  rw [exec_decode_of_commit stopped (decodeAs_of_extract noRepeat result)]
  by_cases data : d = .data
  · subst data; rfl
  · simp only [if_neg data]; rfl

/-- Settles O40: every stream has a first stop, and O39 says what DECODE answers there. -/
theorem decodeCompletesOnEveryStream : Obligations.DecodeCompletesOnEveryStream := by
  intro s p stopped noRepeat
  obtain ⟨good, rest, bits, frame, d, stream, pairs, fits, ends⟩ :=
    hasFrameEnd (c := s.cfg) (p := p) (bits := []) s.pulses (Nat.zero_le _)
  exact ⟨good, rest, bits, frame, d, stream, pairs, fits, ends,
    decodeStopsAtFirstFrameEnd s p good rest bits frame d stopped noRepeat stream pairs fits ends⟩

/-- Settles O41, by the three forms of the Frame that a protocol's decoding leaves. -/
theorem decodeOutcomeAndFrame : Obligations.DecodeOutcomeAndFrame := by
  refine ⟨by decide, fun s tag stopped => ?_⟩
  rcases tag_eq_unknown_or_protocol tag with rfl | ⟨p, rfl⟩
  · exact ⟨_, exec_decode_unknown_of_stopped stopped, by rw [decReg_eq]; rfl,
      .inr (.inr ⟨.head _, iff_of_true rfl rfl, rfl, rfl, rfl⟩)⟩
  refine ⟨_, exec_decode_of_stopped stopped p, rfl, ?_⟩
  rcases decodeAs_cases s p with ⟨bits, found, fits, commits⟩ | ⟨rfl, commits⟩ | ⟨d, error, commits⟩ <;> rw [commits]
  · exact .inl ⟨rfl, tag_ne_unknown p, rfl, rfl, List.length_pos_iff.mpr found, fits⟩
  · exact .inr (.inl ⟨rfl, rfl, rfl, rfl, rfl⟩)
  · exact .inr (.inr ⟨.tail _ error, iff_of_false (not_data_of_error d error).2 (tag_ne_unknown p), rfl, rfl, rfl⟩)

/-- Settles O42: both states commit one Frame, and the response is its three fields. -/
theorem decodeReadsOnlyEdges : Obligations.DecodeReadsOnlyEdges := by
  refine ⟨fun s t tag h => ?_, fun s s' t t' tag stopped stopped' edges depth rom h h' => ?_⟩
  · obtain ⟨d, f, k, bits, st, v, rfl⟩ := execDecode_writes h
    rfl
  · rcases tag_eq_unknown_or_protocol tag with rfl | ⟨p, rfl⟩
    · cases (exec_decode_unknown_of_stopped stopped).symm.trans h
      cases (exec_decode_unknown_of_stopped stopped').symm.trans h'
      exact ⟨rfl, rfl, rfl, rfl, rfl⟩
    · obtain ⟨d, g, k, bits, commits, commits'⟩ := decodeAs_congr edges depth rom p
      cases (exec_decode_of_commit stopped commits).symm.trans h
      cases (exec_decode_of_commit stopped' commits').symm.trans h'
      exact ⟨rfl, rfl, rfl, rfl, rfl⟩

/-- Settles O43: the capture stores the train as it stands, and the train is good pairs that give the Frame's bits. -/
theorem roundTripThroughCapture : Obligations.RoundTripThroughCapture := by
  intro s s1 p l0 d0 levels legal rom found fits room encoded same noTimeout
  have someBits := List.ne_nil_of_length_pos found
  obtain ⟨v, train⟩ := exec_encode_of_bits someBits p
  cases train.symm.trans encoded
  rw [rom] at same ⊢
  have plain : ∀ d ∈ trainOf Rom.default p s.fbuf, d.toNat < 2 ^ s.cfg.durW ∧ isGap s.cfg.rom d = false := fun d hd =>
    ⟨durations_lt_of_legal legal d (rom.symm ▸ mem_durations_of_mem_trainOf hd), rom.symm ▸ isGap_default_of_mem_trainOf hd⟩
  obtain ⟨t, captured, stopped, cfg, pulses⟩ := execAll_capture l0 d0 levels
    (s := (s.writeTrain .ok (trainOf Rom.default p s.fbuf)).withResponse .ok v) (by simpa using room) plain
  have pairs := goodPairs_trainOf (p := p) same noTimeout
  have rom' : t.cfg.rom = Rom.default := (congrArg Config.rom cfg).trans rom
  have decoded := decodeStopsAtFirstFrameEnd t p _ [] s.fbuf s.fbuf .data stopped
    (by rw [rom', pulses]; exact isRepeat_of_goodPairs_default pairs) (by rw [pulses, List.append_nil])
    (by rwa [rom']) (by rwa [cfg]) (.exhausted someBits)
  have beforeDecode := execAll_append captured [.decode p.tag]
  rw [List.append_assoc] at beforeDecode
  exact ⟨_, beforeDecode.trans (execAll_cons decoded []), rfl, rfl, rfl⟩

end Sys2Proof.Machine

/-! SUPPORT and PROOFS for the statements of 43_encoder: what ROM_LOOKUP, FB_PUSH and ENCODE answer, the word that packs a ROM pair,
and a train cell by cell. -/

namespace Sys2Proof.Machine

/-! ### ROM_LOOKUP (rules R210, R213) -/

theorem encode_romLookup_toNat (tag : Tag) (bit : Bool) : (encode (.romLookup tag bit)).1.toNat =
    0x90000000 + 0x4000000 * (tagCode tag).toNat + (if bit then 0x800000 else 0) := by
  cases tag <;> cases bit <;> decide

theorem packable_iff (r : Rom) : r.packable = true ↔ ∀ d ∈ r.durations, d.toNat < 65536 := by
  simp only [Rom.packable, List.all_eq_true, decide_eq_true_iff]

theorem unit_mem_durations (r : Rom) (p : Protocol) : r.unit p ∈ r.durations := by
  cases p <;> simp [Rom.unit, Rom.durations]

theorem short_mem_durations (r : Rom) (p : Protocol) : r.short p ∈ r.durations := by
  cases p <;> simp [Rom.short, Rom.durations]

/-- The mark is LONG, which is the unit, for 1 and SHORT for 0; the space is the unit (rules R13, R210). -/
theorem enc_eq (r : Rom) (p : Protocol) (b : Bool) :
    r.enc p b = (if b then r.unit p else r.short p, r.unit p) := rfl

/-- Two durations of 16 bits side by side, as a number (rule R213). -/
theorem packHalves_eq_ofNat {space mark : Duration} (hspace : space.toNat < 65536) (hmark : mark.toNat < 65536) :
    space.extractLsb' 0 16 ++ mark.extractLsb' 0 16 = BitVec.ofNat 32 (65536 * space.toNat + mark.toNat) := by
  have low {d : Duration} (h : d.toNat < 65536) : (d.extractLsb' 0 16).toNat = d.toNat := by
    rw [BitVec.extractLsb'_toNat, Nat.shiftRight_zero, Nat.mod_eq_of_lt h]
  apply BitVec.eq_of_toNat_eq
  rw [BitVec.toNat_append, low hspace, low hmark, ← Nat.shiftLeft_add_eq_or_of_lt hmark, Nat.shiftLeft_eq,
    BitVec.toNat_ofNat]
  omega

theorem exec_romLookup_of_not_packable {s : State} (h : ¬ s.cfg.rom.packable = true) (tag : Tag) (bit : Bool) :
    exec (.romLookup tag bit) s = .refused .romNotPackable :=
  if_neg h

section

variable {s : State} (h : s.cfg.rom.packable = true) (bit : Bool)
include h

theorem exec_romLookup_unknown_of_packable :
    exec (.romLookup .unknown bit) s = .next (s.withResponse .badTag 0) :=
  if_pos h

theorem exec_romLookup_protocol_of_packable (p : Protocol) :
    exec (.romLookup p.tag bit) s = .next (s.withResponse .ok (BitVec.ofNat 32 (65536 * (s.cfg.rom.unit p).toNat +
      if bit then (s.cfg.rom.unit p).toNat else (s.cfg.rom.short p).toNat))) := by
  have fits := (packable_iff _).mp h
  have space := fits _ (unit_mem_durations s.cfg.rom p)
  have mark : (if bit then s.cfg.rom.unit p else s.cfg.rom.short p).toNat < 65536 := by
    cases bit with
    | false => exact fits _ (short_mem_durations s.cfg.rom p)
    | true => exact space
  simp only [exec, execRomLookup, if_pos h, protocol?_tag, enc_eq, packHalves_eq_ofNat space mark, apply_ite BitVec.toNat,
    respondOk_eq]

end

/-! ### FB_PUSH and ENCODE (rules R215, R216) -/

theorem exec_fbPush_of_full {s : State} (full : s.fbuf.length = s.cfg.fbufDepth) (b : Bool) :
    exec (.fbPush b) s = .next (s.withResponse .full 0) :=
  if_pos full

theorem exec_encode_unknown (s : State) :
    exec (.encode .unknown) s = .next ((s.writeTrain .badTag []).withResponse .badTag 0) := rfl

theorem exec_encode_of_no_bits {s : State} (noBits : s.fbuf = []) (p : Protocol) :
    exec (.encode p.tag) s = .next ((s.writeTrain .empty []).withResponse .empty 0) := by
  have counted : s.flen = 0 := List.length_eq_zero_iff.mpr noBits
  simp only [exec, execEncode, protocol?_tag, if_pos counted, fail_eq]

/-- ENCODE of a Frame responds with PLEN, two for each bit. -/
theorem exec_encode_responds_plen {s : State} (found : s.fbuf ≠ []) (p : Protocol) :
    exec (.encode p.tag) s = .next ((s.writeTrain .ok (trainOf s.cfg.rom p s.fbuf)).withResponse .ok
      (BitVec.ofNat 32 (2 * s.fbuf.length))) := by
  have counted : s.flen ≠ 0 := mt List.length_eq_zero_iff.mp found
  simp only [exec, execEncode, protocol?_tag, if_neg counted, State.plen, writeTrain_pbuf, trainOf_length, respondOk_eq,
    countWord]

/-- Bit `k` gives the mark at `2k` and the space at `2k + 1` (rule R217). -/
theorem trainOf_getElem? {r : Rom} {p : Protocol} {bits : List Bool} {k : Nat} {b : Bool} (h : bits[k]? = some b) :
    (trainOf r p bits)[2 * k]? = some (r.enc p b).1 ∧ (trainOf r p bits)[2 * k + 1]? = some (r.enc p b).2 := by
  induction bits generalizing k with
  | nil => cases h
  | cons b' bits ih =>
    cases k with
    | zero => cases h; exact ⟨rfl, rfl⟩
    | succ k => exact ih h

/-! ### The statements of 43_encoder -/

/-- Settles O44: a ROM that packs holds each pair in 16 bits a half, and any other is refused. -/
theorem romLookupShowsPair : Obligations.RomLookupShowsPair := by
  refine ⟨encode_romLookup_toNat, fun s bit => ⟨?_, fun fits => ?_⟩⟩
  · rintro ⟨d, hd, wide⟩ tag
    exact exec_romLookup_of_not_packable (fun h => Nat.not_lt.mpr wide ((packable_iff _).mp h d hd)) tag bit
  · have packs := (packable_iff s.cfg.rom).mpr fits
    exact ⟨exec_romLookup_unknown_of_packable packs bit, exec_romLookup_protocol_of_packable packs bit⟩

/-- Settles O49: the train has two durations for each bit, the mark and the space of the encoder ROM. -/
theorem encodeWritesTrain : Obligations.EncodeWritesTrain := by
  refine ⟨by decide, fun s => ⟨exec_encode_unknown s, fun p => ⟨fun noBits => ?_, fun found => ?_⟩⟩⟩
  · exact exec_encode_of_no_bits noBits p
  · exact ⟨_, exec_encode_responds_plen found p, trainOf_length _ p s.fbuf, fun k b => trainOf_getElem?⟩

/-- Settles O45: the default ROM packs, and each row is the word of its pair. -/
theorem defaultRomContents : Obligations.DefaultRomContents := by
  intro s rom
  have packs : s.cfg.rom.packable = true := by rw [rom]; decide
  have word (p : Protocol) (bit : Bool) := exec_romLookup_protocol_of_packable packs bit p
  rw [rom] at word
  simp only [List.forall_mem_cons]
  exact ⟨word .aeha true, word .aeha false, word .nec true, word .nec false, word .sony true, word .sony false, nofun⟩

/-- Settles O46. -/
theorem fbClearEmptiesFrame : Obligations.FbClearEmptiesFrame := ⟨rfl, fun _ => rfl⟩

/-- Settles O47, by whether FBUF has room. -/
theorem fbPushAppendsBit : Obligations.FbPushAppendsBit := by
  refine ⟨by decide, fun s b => ?_⟩
  split_ifs with full
  · exact exec_fbPush_of_full full b
  · rw [exec_fbPush_of_room full, State.flen, pushBit_fbuf, List.length_append]
    rfl

/-- Settles O50: the train of these eight bits, computed from the default ROM. -/
theorem encodesA5AsAeha : Obligations.EncodesA5AsAeha := by
  intro s rom bits
  refine ⟨_, exec_encode_responds_plen (by simp [bits]) .aeha, ?_⟩
  rw [withResponse_pbuf, writeTrain_pbuf, rom, bits]
  rfl

end Sys2Proof.Machine

/-! SUPPORT and PROOFS for the statements of 44_access: a buffer read below the count and at or beyond it. -/

namespace Sys2Proof.Machine

/-! ### Buffer reads (rules R242 to R245) -/

section

variable {α : Type} {cells : List α} {k : Index} {asWord : α → Word}

theorem respondCell_readCell_of_some {c : α} {v : Word} (found : cells[k.toNat]? = some c) (shown : asWord c = v)
    (s : State) : respondCell ((readCell cells k).map asWord) s = .next (s.withResponse .ok v) := by
  rw [readCell, found, Option.map_some, shown]
  rfl

theorem respondCell_readCell_of_length_le (beyond : cells.length ≤ k.toNat) (s : State) :
    respondCell ((readCell cells k).map asWord) s = .next (s.withResponse .index 0) := by
  rw [(readCell_eq_none cells k).mpr beyond]
  rfl

end

/-- The word that shows a level (rules R36, R243). -/
theorem zext_levelCode (l : Level) :
    (0 : BitVec 30) ++ levelCode l = match l with | .low => 0 | .high => 1 | .timeout => (2 : Word) := by
  cases l <;> decide

/-- The word that shows a bit (rule R244). -/
theorem zext_bit (b : Bool) : (0 : BitVec 31) ++ BitVec.ofBool b = if b then (1 : Word) else 0 := by
  cases b <;> decide

/-- RD_PULSE as a buffer read like the other three: a pulse is its own word (rule R245). -/
theorem exec_rdPulse_eq (k : Index) (s : State) :
    exec (.rdPulse k) s = respondCell ((readCell s.pbuf k).map id) s := by
  rw [Option.map_id]
  rfl

/-! ### The statements of 44_access -/

/-- Settles O51. -/
theorem nopDoesNothing : Obligations.NopDoesNothing := ⟨by decide, fun _ => rfl⟩

/-- Settles O55: both reads look up the same cell of EBUF, and a level's code is its zero-extended word. -/
theorem edgeReads : Obligations.EdgeReads := by
  refine ⟨fun k => ⟨packFields_toNat .., packFields_toNat ..⟩, fun s k => ⟨fun e found => ⟨?_, ?_⟩, fun beyond => ⟨?_, ?_⟩⟩⟩
  · exact respondCell_readCell_of_some found rfl s
  · exact respondCell_readCell_of_some found (zext_levelCode e.lvl) s
  · exact respondCell_readCell_of_length_le beyond s
  · exact respondCell_readCell_of_length_le beyond s

/-- Settles O56: a bit of FBUF is its zero-extended word, and a pulse is its own word. -/
theorem frameAndPulseReads : Obligations.FrameAndPulseReads := by
  refine ⟨fun k => ⟨packFields_toNat .., packFields_toNat ..⟩,
    fun s k => ⟨fun b found => ?_, fun d found => ?_, fun beyond => ?_, fun beyond => ?_⟩⟩
  · exact respondCell_readCell_of_some found (zext_bit b) s
  · exact (exec_rdPulse_eq k s).trans (respondCell_readCell_of_some found rfl s)
  · exact respondCell_readCell_of_length_le beyond s
  · exact (exec_rdPulse_eq k s).trans (respondCell_readCell_of_length_le beyond s)

end Sys2Proof.Machine

/-! SUPPORT and PROOFS for the statements of 70_reset_and_hazards: with no pulse the classifier has no sample and the decoder no
mark. -/

namespace Sys2Proof.Machine

/-! ### No pulse (rules R155, R190) -/

theorem classifyPulses_nil (r : Rom) : classifyPulses r [] = (.unknown, false) := rfl

theorem isRepeat_nil (r : Rom) (p : Protocol) : isRepeat r p [] = false := Bool.and_false _

theorem extract_nil (c : Config) (p : Protocol) : extract c p [] = (.errEmpty, []) :=
  extractFrom_frameEnd (.noPulse rfl)

theorem decodeAs_of_no_pulse {s : State} (noPulse : s.pulses = []) (p : Protocol) :
    s.decodeAs p = s.commitFrame .errEmpty .unknown .none [] :=
  decodeAs_of_extract (by rw [noPulse, isRepeat_nil]) (by rw [noPulse, extract_nil])

/-! ### Reads of empty buffers (rule R57) -/

theorem exec_read_of_empty {s : State} (noEdges : s.ebuf = []) (noBits : s.fbuf = []) (noTrain : s.pbuf = []) (k : Index) :
    ∀ i ∈ [Instr.rdEdur k, .rdElvl k, .rdFbit k, .rdPulse k], exec i s = .next (s.withResponse .index 0) := by
  obtain ⟨-, edges⟩ := edgeReads.2 s k
  obtain ⟨-, -, bits, train⟩ := frameAndPulseReads.2 s k
  obtain ⟨durations, levels⟩ := edges (by simp [noEdges])
  simp only [List.forall_mem_cons]
  exact ⟨durations, levels, bits (by simp [noBits]), train (by simp [noTrain]), List.forall_mem_nil _⟩

/-! ### The statements of 70_reset_and_hazards -/

/-- Settles O17: reset leaves no capture running and every buffer empty, so there is no cell to read and no pulse. -/
theorem afterResetNothingIsCaptured : Obligations.AfterResetNothingIsCaptured := by
  intro c
  have stopped : (State.resetWith c).segState ≠ .capturing := nofun
  have noPulse : (State.resetWith c).pulses = [] := rfl
  have noSample : classifyPulses c.rom (State.resetWith c).pulses = (.unknown, false) := by rw [noPulse, classifyPulses_nil]
  exact ⟨exec_read_of_empty rfl rfl rfl, ⟨_, exec_classify_of_stopped stopped noSample, rfl, rfl⟩,
    fun p => ⟨_, exec_decode_of_commit stopped (decodeAs_of_no_pulse noPulse p), rfl⟩,
    ⟨_, exec_decode_unknown_of_stopped stopped, rfl⟩⟩

end Sys2Proof.Machine
